-- ==== Sys2Proof/Word.lean ====
section
/-! DEFINITION. The data the block moves: bytes, command words, the 9-bit counters, and fixed-size byte
buffers (00_scope R4, R6, R7; 10_state R16, R20 to R22, R25). -/

namespace Sys2Proof

/-- A byte: 8 bits, unsigned (R4). Its `+` is the spec's addition modulo 256, its `~~~` the 8-bit NOT (R6). -/
abbrev Byte := BitVec 8

/-- A command word (30_encoding R60). -/
abbrev Word := BitVec 32

/-- A frame position or a byte count: 9 bits (10_state R16, R21). -/
abbrev Count := BitVec 9

/-- A register file of `n` one-byte entries (`PBUF_E`, `RXBUF`, `PBUF_D`). The data carries its own size. -/
structure ByteBuf (n : Nat) where
  data : List Byte
  size : data.length = n
  deriving DecidableEq, Repr

/-- The buffer whose entries are all `0x00`, every buffer's reset value (10_state R36). -/
def ByteBuf.zeros (n : Nat) : ByteBuf n := ⟨List.replicate n 0, List.length_replicate⟩

end Sys2Proof
end

