-- ==== Sys2Proof/Config.lean ====
section
/-! DEFINITION. The parameters the spec fixes (00_scope R4), the one it leaves open (R5), and the model's
one free value. -/

namespace Sys2Proof

/-- The two header bytes of every frame (R4, 30_encoding R69). -/
def Config.preamble : Byte := 0xFF

/-- The greatest valid servo ID (R4, R72). -/
def Config.idMax : Nat := 253

/-- The greatest parameter count of a frame (R4). -/
def Config.npMax : Nat := 253

/-- `FRAME_MIN`, the size of a frame without parameters (00_scope section 4). -/
def Config.frameMin : Nat := 6

/-- `RXBUF_SIZE`, which is also `FRAME_MAX` (00_scope section 4). -/
def Config.rxBufSize : Nat := 259

/-- The value of `RXCNT` that means "more than 259 bytes" (10_state R21). -/
def Config.rxOverflow : Nat := 260

/-- The default of the open parameter `MT_SIGN_NEG_WHEN_SET` (R5). `mtOffset` takes the parameter as an
argument, so that a claim can hold for both values (log entry 13). -/
def Config.mtSignNegWhenSetDefault : Bool := true

/-- FREE VALUE. The byte the encoder offers at a position `ENC_POS` beyond the frame's last byte, given
`ENC_POS` and `ENC_NP`. R122 defines `FB` only up to the last byte, and no reachable state is beyond it.
DESIGN CHOICE, safe (log entry 7): nothing constrains this value. -/
opaque Config.frameByteBeyondEnd : Count → Byte → Byte

end Sys2Proof
end

