-- ==== Sys2Proof/Machine/Operands.lean ====
section
/-! DEFINITION. Operand forms: the byte fields of a command word (30_encoding R61 to R64, R68), byte-list
slices (00_scope R7), and the payload helpers that read and make parameter bytes (43_wire_commands R184 to R186). -/

namespace Sys2Proof.Machine

/-- `OP = cmd_word[31:28]` (R60). -/
def opField (w : Word) : BitVec 4 := w.extractLsb' 28 4

/-- `cmd_word[7:0]`: `BYTE` of formats B and L, `NP` of format S (R62 to R64). -/
def field0 (w : Word) : Byte := w.extractLsb' 0 8

/-- `cmd_word[15:8]`: `IDX` of format L, `CMD` of format S (R63, R64). -/
def field1 (w : Word) : Byte := w.extractLsb' 8 8

/-- `cmd_word[23:16]`: `ID` of format S (R64). -/
def field2 (w : Word) : Byte := w.extractLsb' 16 8

/-- A word from its opcode and its three byte fields, ignored bits 0 (R67, R73). -/
def packWord (op : BitVec 4) (f2 f1 f0 : Byte) : Word :=
  (op.setWidth 32 <<< 28) ||| (f2.setWidth 32 <<< 16) ||| (f1.setWidth 32 <<< 8) ||| f0.setWidth 32

/-- The bits of a word that its format uses; the others are ignored (R61 to R64, R67). A reserved opcode has no
format. -/
def usedMask (op : BitVec 4) : Word :=
  match op.toNat with
  | 2 => 0xF00000FF
  | 3 => 0xF000FFFF
  | 4 => 0xF0FFFFFF
  | 5 => 0xF00000FF
  | _ => 0xF0000000

/-- `B[i..j]`, the inclusive slice, empty when `j < i` (R7). -/
def slice (B : List Byte) (i j : Nat) : List Byte := (B.take (j + 1)).drop i

/-- `le_bytes(value, w)`: the `w` bytes of `value`, least-significant first; no result when the value does not
fit (R184). -/
def leBytes (value w : Nat) : Option (List Byte) :=
  if value < 256 ^ w then some ((List.range w).map fun k => BitVec.ofNat 8 (value >>> (8 * k)))
  else none

/-- `le_value(bytes)`: the sum over `k` of `bytes[k] * 256^k` (R185). -/
def leValue (bytes : List Byte) : Nat :=
  (bytes.mapIdx fun k b => b.toNat * 256 ^ k).sum

/-- `LE16(lo, hi)`, 0 to 65535 (R185). -/
def le16 (lo hi : Byte) : Nat := lo.toNat + 256 * hi.toNat

/-- `mt_offset(raw)`: sign and magnitude, bit 15 the sign; `negWhenSet` is the open parameter
`MT_SIGN_NEG_WHEN_SET` (R5, R186; log entry 13). -/
def mtOffset (negWhenSet : Bool) (raw : BitVec 16) : Int :=
  let mag : Int := (raw.extractLsb' 0 15).toNat
  let neg := if negWhenSet then raw.getLsbD 15 else !raw.getLsbD 15
  if neg then -mag else mag

end Sys2Proof.Machine
end

