-- ==== Sys2Proof/Machine/Frame.lean ====
section
/-! DEFINITION. The normative functional core over byte lists (00_scope R9): `checksum` (R100), `build`
(R120) and `parse` (R150). -/

namespace Sys2Proof.Machine

/-- `sum(B)`: the integer sum of the bytes, not reduced (R7). -/
def byteSum (B : List Byte) : Nat := (B.map BitVec.toNat).sum

/-- `sum(B) mod 256`, what an 8-bit accumulator holds (R101). -/
def byteSum8 (B : List Byte) : Byte := BitVec.ofNat 8 (byteSum B)

/-- `checksum(B) = (~sum(B)) & 0xFF`, with `~` the NOT of an unbounded integer (R100). -/
def checksum (B : List Byte) : Byte := BitVec.ofInt 8 (~~~(byteSum B : Int))

/-- The outcome of `build` (R120). -/
inductive Built where
  | frame (F : List Byte)
  | errNParams
  | errId
  deriving DecidableEq, Repr

/-- The bytes the checksum covers: ID, LENGTH, the command or error byte, and the parameters (R100). -/
def frameBody (id cmd : Byte) (P : List Byte) : List Byte :=
  [id, BitVec.ofNat 8 (P.length + 2), cmd] ++ P

/-- The whole frame of a body (R69, R120). -/
def frameOf (body : List Byte) : List Byte :=
  [Config.preamble, Config.preamble] ++ body ++ [checksum body]

/-- `build(id, cmd, P)`: the parameter count is checked first (R120). -/
def build (id cmd : Byte) (P : List Byte) : Built :=
  if P.length > Config.npMax then .errNParams
  else if id.toNat > Config.idMax then .errId
  else .frame (frameOf (frameBody id cmd P))

/-- The fields `parse` extracts (R150). -/
structure Fields where
  id : Byte
  len : Byte
  err : Byte
  params : List Byte
  chk : Byte
  deriving DecidableEq, Repr

/-- The outcome of `parse` (R150). -/
inductive Parsed where
  | ok (f : Fields)
  | servoFault (f : Fields)
  | framingError
  | truncatedFrame
  | checksumError
  deriving DecidableEq, Repr

/-- `B[i]`, read only where `i < |B|` (R7, R151). -/
def byteAt (B : List Byte) (i : Nat) : Byte := B.getD i 0

/-- The fields of a structurally valid buffer (R150). -/
def fieldsOf (B : List Byte) : Fields :=
  { id := byteAt B 2, len := byteAt B 3, err := byteAt B 4
    params := slice B 5 (B.length - 2), chk := byteAt B (B.length - 1) }

/-- `parse(B)`: size, preamble, exact count, checksum, error byte, in this order (R150, 90_conflicts C2, C6). -/
def parse (B : List Byte) : Parsed :=
  let n := B.length
  if n < Config.frameMin then .truncatedFrame
  else if byteAt B 0 ≠ Config.preamble ∨ byteAt B 1 ≠ Config.preamble then .framingError
  else if n ≠ (byteAt B 3).toNat + 4 then .truncatedFrame
  else if byteAt B (n - 1) ≠ checksum (slice B 2 (n - 2)) then .checksumError
  else if byteAt B 4 ≠ 0 then .servoFault (fieldsOf B)
  else .ok (fieldsOf B)

end Sys2Proof.Machine
end

