-- ==== Sys2Proof/Syntax.lean ====
section
/-! DEFINITION. The instructions: one constructor per row of spec/opcode_table.json. -/

namespace Sys2Proof

/-- The seven commands of the command port (30_encoding R65) and the three wire commands (43_wire_commands
R180 to R182). An operand of a command is a byte taken as is (R68). -/
inductive Instr where
  /-- `NOP` (R103). -/
  | nop
  /-- `CU_CLR` (R104). -/
  | cuClr
  /-- `CU_ADD` (R105). -/
  | cuAdd (byte : Byte)
  /-- `ENC_LOAD` (R123). -/
  | encLoad (idx byte : Byte)
  /-- `ENC_START` (R124). -/
  | encStart (id cmd np : Byte)
  /-- `DEC_BYTE` (R152). -/
  | decByte (byte : Byte)
  /-- `DEC_END` (R153). -/
  | decEnd
  /-- `FRAME_PING`, command code `0x01`, no parameters (R180). -/
  | framePing (id : Byte)
  /-- `FRAME_READ`, command code `0x02`, parameters `[address, width]` (R181). -/
  | frameRead (id address width : Byte)
  /-- `FRAME_WRITE`, command code `0x03`, parameters `[address] ++ le_bytes(value, width)` (R182). -/
  | frameWrite (id address : Byte) (width value : Nat)
  deriving DecidableEq, Repr

/-- What a wire command asks the encoder to frame: the operands of `enc.frame id, cmd, p0, ...` (R74). -/
structure Request where
  id : Byte
  cmd : Byte
  params : List Byte
  deriving DecidableEq, Repr

/-- What a host presents: a command word on the command port (R12), or the first line of an `enc.frame`, named by the
operands of the whole (R74, R180 to R182). The lines after the first are words of the steps after it (10_state R11;
log entry 4). -/
inductive Command where
  | word (w : Word)
  | request (r : Request)
  deriving DecidableEq, Repr

/-- The two encodings of 30_encoding: a 32-bit command word, or the byte sequence of a frame. -/
inductive Encoded where
  | word (w : Word)
  | frame (bytes : List Byte)
  deriving DecidableEq, Repr

end Sys2Proof
end

