-- ==== Sys2Proof/WellFormed.lean ====
section
/-! DEFINITION. The operand values an encoding admits. Every operand of a command word is encodable (R68);
a request frame needs a valid ID (R72), and a write's value must fit its width (R182, R184). -/

namespace Sys2Proof

/-- The ID is one a frame can be built for (R4, R72, R120). -/
def Instr.validId (id : Byte) : Bool := decide (id.toNat ≤ Config.idMax)

/-- The operands have an encoding. -/
def Instr.wellFormed : Instr → Bool
  | .nop => true
  | .cuClr => true
  | .cuAdd _ => true
  | .encLoad _ _ => true
  | .encStart _ _ _ => true
  | .decByte _ => true
  | .decEnd => true
  | .framePing id => Instr.validId id
  | .frameRead id _ _ => Instr.validId id
  | .frameWrite id _ width value =>
      Instr.validId id && decide (width + 1 ≤ Config.npMax) && decide (value < 256 ^ width)

end Sys2Proof
end

