-- ==== Sys2Proof/Decode.lean ====
section
/-! DEFINITION. Decoding of command words (30_encoding R60 to R68) and of request frames (R69 to R72, R180
to R182), total and rejecting by name, and the encoder. -/

namespace Sys2Proof

open Sys2Proof.Machine

/-- Why bits are no instruction. -/
inductive Reject where
  /-- An opcode 0x7 to 0xF (R66). -/
  | reservedOpcode (op : BitVec 4)
  /-- A command code the spec gives no meaning (R71, U12). -/
  | unknownCommand (code : Byte)
  /-- A known command code with a parameter count that is not its layout's (R180 to R182). -/
  | paramCount (code : Byte) (np : Nat)
  /-- The reserved IDs 254 and 255, for which no frame is built (R72). -/
  | reservedId (id : Byte)
  /-- The bytes are no frame: the verdict of `parse` (R150). -/
  | badFrame (verdict : Parsed)
  deriving DecidableEq, Repr

/-- What the decoder answers. -/
inductive Decoded where
  | instr (i : Instr)
  | reject (r : Reject)
  deriving DecidableEq, Repr

/-- The instruction, if there is one. -/
def Decoded.instr? : Decoded → Option Instr
  | .instr i => some i
  | .reject _ => none

/-- A command word: the opcode alone selects the command and its format; ignored bits are not read
(R60 to R67). -/
def decodeWord (w : Word) : Decoded :=
  match (opField w).toNat with
  | 0 => .instr .nop
  | 1 => .instr .cuClr
  | 2 => .instr (.cuAdd (field0 w))
  | 3 => .instr (.encLoad (field1 w) (field0 w))
  | 4 => .instr (.encStart (field2 w) (field1 w) (field0 w))
  | 5 => .instr (.decByte (field0 w))
  | 6 => .instr .decEnd
  | _ => .reject (.reservedOpcode (opField w))

/-- The parameters of command code `0x03`: the address, then the value's bytes, little-endian (R182, R185). -/
def decodeWriteParams (id : Byte) : List Byte → Decoded
  | [] => .reject (.paramCount 3 0)
  | address :: v => .instr (.frameWrite id address v.length (leValue v))

/-- The parameters of command code `0x02`: address, then width (R181). -/
def decodeReadParams (id : Byte) : List Byte → Decoded
  | [address, width] => .instr (.frameRead id address width)
  | P => .reject (.paramCount 2 P.length)

/-- The parameters of command code `0x01`: none (R180). -/
def decodePingParams (id : Byte) : List Byte → Decoded
  | [] => .instr (.framePing id)
  | P => .reject (.paramCount 1 P.length)

/-- A wire command from the operands of its `enc.frame` (R71, R180 to R182). -/
def decodeRequest (r : Request) : Decoded :=
  match r.cmd.toNat with
  | 1 => decodePingParams r.id r.params
  | 2 => decodeReadParams r.id r.params
  | 3 => decodeWriteParams r.id r.params
  | _ => .reject (.unknownCommand r.cmd)

/-- What a structurally valid request frame asks for: byte 4 is its command code (R69, R71). -/
def decodeFields (f : Fields) : Decoded :=
  if Instr.validId f.id then decodeRequest { id := f.id, cmd := f.err, params := f.params }
  else .reject (.reservedId f.id)

/-- A request frame's bytes. A frame that is not structurally valid is rejected with `parse`'s verdict (R150). -/
def decodeFrame (F : List Byte) : Decoded :=
  match parse F with
  | .ok f => decodeFields f
  | .servoFault f => decodeFields f
  | v => .reject (.badFrame v)

/-- Either encoding. -/
def decode : Encoded → Decoded
  | .word w => decodeWord w
  | .frame F => decodeFrame F

/-- What a host presents. -/
def decodeCommand : Command → Decoded
  | .word w => decodeWord w
  | .request r => decodeRequest r

/-- The command word of an instruction of the command port, ignored bits 0 (R65, R67, R73). -/
def encodeWord : Instr → Option Word
  | .nop => some (packWord 0 0 0 0)
  | .cuClr => some (packWord 1 0 0 0)
  | .cuAdd b => some (packWord 2 0 0 b)
  | .encLoad i b => some (packWord 3 0 i b)
  | .encStart id cmd np => some (packWord 4 id cmd np)
  | .decByte b => some (packWord 5 0 0 b)
  | .decEnd => some (packWord 6 0 0 0)
  | .framePing _ => none
  | .frameRead _ _ _ => none
  | .frameWrite _ _ _ _ => none

/-- The `enc.frame` operands of a wire command (R180 to R182); none where the value does not fit its width
(R184). -/
def requestOf : Instr → Option Request
  | .framePing id => some { id := id, cmd := 1, params := [] }
  | .frameRead id address width => some { id := id, cmd := 2, params := [address, width] }
  | .frameWrite id address width value =>
      match leBytes value width with
      | some v => some { id := id, cmd := 3, params := address :: v }
      | none => none
  | .nop => none
  | .cuClr => none
  | .cuAdd _ => none
  | .encLoad _ _ => none
  | .encStart _ _ _ => none
  | .decByte _ => none
  | .decEnd => none

/-- The request frame of a wire command (R120, R180 to R182). -/
def encodeFrame (i : Instr) : Option (List Byte) :=
  match requestOf i with
  | none => none
  | some r =>
    match build r.id r.cmd r.params with
    | .frame F => some F
    | .errNParams => none
    | .errId => none

/-- The encoding of an instruction: its command word, or its request frame. -/
def encode (i : Instr) : Option Encoded :=
  match encodeWord i with
  | some w => some (.word w)
  | none => (encodeFrame i).map Encoded.frame

/-- The wire command whose code is `cmd` and whose operand bytes are all zero: ID 0, then the operand bytes
the table's row names (log entry 11). -/
def tableRequest (cmd : Byte) : Request :=
  { id := 0, cmd := cmd, params := if cmd = 1 then [] else [0, 0] }

/-- What a host presents for a row of spec/opcode_table.json: a row of 8 bits is a frame command code, frame
byte 4 (formats FRAME), a row of 32 bits a command word (log entry 11). -/
def tableCommand (nbits w : Nat) : Command :=
  if nbits ≤ 8 then .request (tableRequest (BitVec.ofNat 8 w)) else .word (BitVec.ofNat 32 w)

/-- The instruction the decoder reads from a table row's bits. -/
def decodeTableWord (nbits w : Nat) : Option Instr := (decodeCommand (tableCommand nbits w)).instr?

end Sys2Proof
end

