-- ==== Sys2Proof/Machine/State.lean ====
section
/-! DEFINITION. The machine's state: every register of 10_state R36, and the host's side of the ports (R12,
R30) as plain data; the reasons a step can stop; the state after reset. -/

namespace Sys2Proof.Machine

/-- The four codes of `ENC_STATUS` (10_state R19, 60_exceptions R201). -/
inductive EncStatus where
  | none
  | accepted
  | errNParams
  | errId
  deriving DecidableEq, Repr

/-- The six codes of `DEC_STATUS` that a rule writes or reset leaves (10_state R23, 60_exceptions R202). The
codes 6 and 7 are never written (log entry 9). -/
inductive DecStatus where
  | none
  | ok
  | servoFault
  | framingError
  | truncatedFrame
  | checksumError
  deriving DecidableEq, Repr

/-- The inputs the host drives in one step (R12). -/
structure PortInput where
  rst : Bool
  cmdValid : Bool
  cmdWord : Word
  outReady : Bool
  deriving DecidableEq, Repr

/-- One entry of what the host will do (log entry 1). -/
inductive HostAct where
  /-- Drive these inputs for exactly one step (R12); a command held in that step is withdrawn (R224). -/
  | cycle (p : PortInput)
  /-- Present a command with `cmd_valid = 1` in consecutive steps until it is accepted (30_encoding R73). -/
  | present (c : Command) (outReady : Bool)
  /-- Keep `out_ready = 1` and `cmd_valid = 0` until `enc_busy = 0` (30_encoding R74). -/
  | drain
  deriving DecidableEq, Repr

/-- A byte the host has taken, with the `enc_out_last` it saw (R30). -/
structure OutByte where
  byte : Byte
  last : Bool
  deriving DecidableEq, Repr

/-- The state. Every field down to `pbufD` is a register of 10_state R36 under its own name; `host` and
`taken` are the model's own record of the host's side (log entries 1 and 3). -/
structure State where
  /-- `CU_ACC` (R14). -/
  cuAcc : Byte
  /-- `ENC_BUSY` (R15). -/
  encBusy : Bool
  /-- `ENC_POS` (R16). -/
  encPos : Count
  /-- `ENC_ID` (R17). -/
  encId : Byte
  /-- `ENC_CMD` (R17). -/
  encCmd : Byte
  /-- `ENC_NP` (R17). -/
  encNp : Byte
  /-- `ENC_ACC` (R18). -/
  encAcc : Byte
  /-- `ENC_STATUS` (R19). -/
  encStatus : EncStatus
  /-- `PBUF_E[0..255]` (R20). -/
  pbufE : ByteBuf 256
  /-- `RXCNT` (R21). -/
  rxCnt : Count
  /-- `RXBUF[0..258]` (R22). -/
  rxBuf : ByteBuf 259
  /-- `DEC_STATUS` (R23). -/
  decStatus : DecStatus
  /-- `DEC_ID` (R24). -/
  decId : Byte
  /-- `DEC_LEN` (R24). -/
  decLen : Byte
  /-- `DEC_ERR` (R24). -/
  decErr : Byte
  /-- `DEC_NP` (R24). -/
  decNp : Byte
  /-- `DEC_CHK` (R24). -/
  decChk : Byte
  /-- `PBUF_D[0..252]` (R25). -/
  pbufD : ByteBuf 253
  /-- What the host will drive, the next step's entry first (log entries 1 and 2). -/
  host : List HostAct
  /-- The bytes the host has taken, oldest first (R30, R74; log entry 3). -/
  taken : List OutByte
  deriving DecidableEq, Repr

/-- The block has no trap and no fault of any kind (60_exceptions R200): no constructor. -/
inductive Fault where
  deriving DecidableEq, Repr

/-- Why a step has no next state. -/
inductive Refusal where
  /-- An instruction without a meaning in this model, raised by `exec`'s arms alone. Safe. No arm uses it. -/
  | notModelled (mnemonic : String)
  /-- A reserved opcode presented while `rst = 0`, raised by the step (30_encoding R66, R32, U1). Safe: the spec
  asks a model to refuse such a step. -/
  | reservedOpcode (op : BitVec 4)
  /-- A wire command whose value does not fit its width, raised by FRAME_WRITE (43_wire_commands R184: "rejected
  before any byte is built"). Safe. -/
  | valueOutOfRange
  /-- An `enc.frame` with more than 255 parameters, raised by the wire commands (30_encoding R73: the assembler
  rejects an operand above 255). Safe. -/
  | operandNotEncodable
  deriving DecidableEq, Repr

/-- The state after a reset step, every register at its value in 10_state R36 (R35). The host's script and
record are empty (log entries 1 and 3). -/
def State.reset : State :=
  { cuAcc := 0x00
    encBusy := false, encPos := 0, encId := 0x00, encCmd := 0x00, encNp := 0x00, encAcc := 0x00
    encStatus := .none, pbufE := ByteBuf.zeros 256
    rxCnt := 0, rxBuf := ByteBuf.zeros 259
    decStatus := .none, decId := 0x00, decLen := 0x00, decErr := 0x00, decNp := 0x00, decChk := 0x00
    pbufD := ByteBuf.zeros 253
    host := [], taken := [] }

end Sys2Proof.Machine
end

