-- ==== Sys2Proof/Machine/Ops.lean ====
section
/-! DEFINITION. The named operations over the registers, the buffers and the host's script. The block has no
memory (20_memory R40) and takes no exception (60_exceptions R200); recording a status is the whole of its
error mechanism. -/

namespace Sys2Proof

/-- Entry `i` of a buffer; every rule reads inside the buffer (R8, R151). -/
def ByteBuf.get {n : Nat} (b : ByteBuf n) (i : Nat) : Byte := b.data.getD i 0

/-- `BUF[i] <- v` (R8). -/
def ByteBuf.set {n : Nat} (b : ByteBuf n) (i : Nat) (v : Byte) : ByteBuf n :=
  ⟨b.data.set i v, by rw [List.length_set]; exact b.size⟩

/-- The buffer whose entry `i` is `f i`, for every `i < n`. -/
def ByteBuf.tabulate (n : Nat) (f : Nat → Byte) : ByteBuf n :=
  ⟨(List.range n).map f, by rw [List.length_map, List.length_range]⟩

end Sys2Proof

namespace Sys2Proof.Machine

/-- `CU_ACC <- v`. -/
def State.setCuAcc (s : State) (v : Byte) : State := { s with cuAcc := v }

/-- `PBUF_E[i] <- v`. -/
def State.setPbufE (s : State) (i : Nat) (v : Byte) : State := { s with pbufE := s.pbufE.set i v }

/-- `ENC_STATUS <- c`. -/
def State.setEncStatus (s : State) (c : EncStatus) : State := { s with encStatus := c }

/-- The writes of a valid `ENC_START` but for the status: the operands are latched and the frame starts at
position 0 with a cleared accumulator (41_packet_encoder R124). -/
def State.latchFrame (s : State) (id cmd np : Byte) : State :=
  { s with encId := id, encCmd := cmd, encNp := np, encPos := 0, encAcc := 0x00, encBusy := true }

/-- `RXBUF[i] <- v`. -/
def State.setRxBuf (s : State) (i : Nat) (v : Byte) : State := { s with rxBuf := s.rxBuf.set i v }

/-- `RXCNT <- n`. -/
def State.setRxCnt (s : State) (n : Count) : State := { s with rxCnt := n }

/-- The result registers a `DEC_END` writes (42_packet_decoder R155). -/
structure DecResult where
  status : DecStatus
  id : Byte
  len : Byte
  err : Byte
  np : Byte
  chk : Byte
  params : ByteBuf 253
  deriving DecidableEq, Repr

/-- A verdict with every field 0 (R155: the error verdicts). -/
def DecResult.discarded (v : DecStatus) : DecResult :=
  { status := v, id := 0, len := 0, err := 0, np := 0, chk := 0, params := ByteBuf.zeros 253 }

/-- The result write of `DEC_END` (R155). -/
def State.setResult (s : State) (r : DecResult) : State :=
  { s with decStatus := r.status, decId := r.id, decLen := r.len, decErr := r.err, decNp := r.np
           decChk := r.chk, pbufD := r.params }

/-- What the host will drive. -/
def State.setHost (s : State) (acts : List HostAct) : State := { s with host := acts }

/-- The host goes on with these lines, each presented until it is accepted, before the rest of its script
(30_encoding R73). While it presents them it drives `out_ready = 0` (95_test_vectors section 3; log entry 4). -/
def State.queueLines (s : State) (ws : List Word) : State :=
  s.setHost (ws.map (fun w => .present (.word w) false) ++ s.host)

/-- Every register at its reset value (70_reset_and_hazards R220). The host's script and the bytes it has
taken are not the block's (R223; log entry 18). -/
def State.resetRegs (s : State) : State :=
  { State.reset with host := s.host, taken := s.taken }

/-- The inputs of a step: `rst`, the command presented if `cmd_valid = 1`, and `out_ready` (R12). -/
structure StepInput where
  rst : Bool
  cmd : Option Command
  outReady : Bool
  deriving DecidableEq, Repr

/-- What a host without a script drives: nothing (log entry 2). -/
def StepInput.idle : StepInput := { rst := false, cmd := none, outReady := false }

/-- The inputs of port level; `cmd_word` is ignored when `cmd_valid = 0` (R12). -/
def PortInput.input (p : PortInput) : StepInput :=
  { rst := p.rst, cmd := if p.cmdValid then some (.word p.cmdWord) else none, outReady := p.outReady }

/-- What an entry of the script drives (R73, R74). -/
def HostAct.input : HostAct → StepInput
  | .cycle p => p.input
  | .present c r => { rst := false, cmd := some c, outReady := r }
  | .drain => { rst := false, cmd := none, outReady := true }

/-- A `drain` ends as soon as `enc_busy = 0`, without a step of its own (R74; log entry 10). -/
def skipDrains (busy : Bool) : List HostAct → List HostAct
  | .drain :: acts => if busy then .drain :: acts else skipDrains busy acts
  | acts => acts

end Sys2Proof.Machine
end

