-- ==== Sys2Proof/Machine/ChecksumUnit.lean ====
section
/-! DEFINITION. The checksum_unit's commands (40_checksum_unit R103 to R105). -/

namespace Sys2Proof.Machine

/-- `NOP`: no state change (R103). -/
def execNop (s : State) : Host.Outcome State Fault Refusal := .next s

/-- `CU_CLR`: `CU_ACC <- 0x00` (R104). -/
def execCuClr (s : State) : Host.Outcome State Fault Refusal := .next (s.setCuAcc 0x00)

/-- `CU_ADD`: `CU_ACC <- CU_ACC + BYTE` modulo 256 (R105). -/
def execCuAdd (byte : Byte) (s : State) : Host.Outcome State Fault Refusal :=
  .next (s.setCuAcc (s.cuAcc + byte))

end Sys2Proof.Machine
end

