-- ==== Sys2Proof/Machine/Flags.lean ====
section
/-! DEFINITION. The status codes and every condition that computes one (60_exceptions R201 to R203), the
handshake `cmd_ready` (10_state R28), the frame-byte function (R122), and the outputs (R29 to R31). -/

namespace Sys2Proof.Machine

/-- The 2-bit code of `ENC_STATUS` (R201). -/
def EncStatus.code : EncStatus → BitVec 2
  | .none => 0
  | .accepted => 1
  | .errNParams => 2
  | .errId => 3

/-- The 3-bit code of `DEC_STATUS` (R202). -/
def DecStatus.code : DecStatus → BitVec 3
  | .none => 0
  | .ok => 1
  | .servoFault => 2
  | .framingError => 3
  | .truncatedFrame => 4
  | .checksumError => 5

/-- The verdicts that leave fields: OK and SERVO_FAULT (R155). -/
def DecStatus.hasFields : DecStatus → Bool
  | .ok => true
  | .servoFault => true
  | .none => false
  | .framingError => false
  | .truncatedFrame => false
  | .checksumError => false

/-- The `DEC_STATUS` of a `parse` outcome (R202). -/
def Parsed.status : Parsed → DecStatus
  | .ok _ => .ok
  | .servoFault _ => .servoFault
  | .framingError => .framingError
  | .truncatedFrame => .truncatedFrame
  | .checksumError => .checksumError

/-- The `ENC_STATUS` of a `build` outcome (R201). -/
def Built.status : Built → EncStatus
  | .frame _ => .accepted
  | .errNParams => .errNParams
  | .errId => .errId

/-- The outcome of an `ENC_START`: the parameter count is checked first (R124, R203). -/
def startStatus (id np : Byte) : EncStatus :=
  if np.toNat > Config.npMax then .errNParams
  else if id.toNat > Config.idMax then .errId
  else .accepted

/-- `VERDICT_HW()`, from `RXCNT` and `RXBUF` (R154). -/
def verdictHw (s : State) : DecStatus :=
  let n := s.rxCnt.toNat
  if n < Config.frameMin then .truncatedFrame
  else if s.rxBuf.get 0 ≠ Config.preamble ∨ s.rxBuf.get 1 ≠ Config.preamble then .framingError
  else if n ≠ (s.rxBuf.get 3).toNat + 4 then .truncatedFrame
  else if s.rxBuf.get (n - 1) ≠ checksum (slice s.rxBuf.data 2 (n - 2)) then .checksumError
  else if s.rxBuf.get 4 ≠ 0x00 then .servoFault
  else .ok

/-- `cmd_ready` for a command word: `ENC_LOAD` and `ENC_START` are held while `ENC_BUSY = 1`, and nothing else is
(R28). -/
def wordReady (s : State) (w : Word) : Bool :=
  !(s.encBusy && (opField w == 3 || opField w == 4))

/-- `cmd_ready` for what a host presents; the first line of an `enc.frame` is an ENC command (R28, R74). -/
def cmdReady (s : State) : Command → Bool
  | .word w => wordReady s w
  | .request _ => !s.encBusy

/-- `FB(state)`, the byte offered at `ENC_POS` (R122). Beyond the frame's last byte, where the rule defines
nothing, a free value (log entry 7). -/
def frameByte (s : State) : Byte :=
  let p := s.encPos.toNat
  let n := s.encNp.toNat
  if p = 0 ∨ p = 1 then Config.preamble
  else if p = 2 then s.encId
  else if p = 3 then s.encNp + 2
  else if p = 4 then s.encCmd
  else if 5 ≤ p ∧ p ≤ n + 4 then s.pbufE.get (p - 5)
  else if p = n + 5 then ~~~s.encAcc
  else Config.frameByteBeyondEnd s.encPos s.encNp

/-- `ENC_POS = ENC_NP + 5`, the position of the frame's last byte (R30, R125). -/
def atLastByte (s : State) : Bool := s.encPos.toNat == s.encNp.toNat + 5

/-- The outputs but for `cmd_ready` (R29 to R31). -/
structure Outputs where
  cuAcc : Byte
  cuChk : Byte
  encBusy : Bool
  encOutValid : Bool
  encOutByte : Byte
  encOutLast : Bool
  encStatus : BitVec 2
  decRxcnt : Count
  decStatus : BitVec 3
  decId : Byte
  decLen : Byte
  decErr : Byte
  decNp : Byte
  decChk : Byte
  decParam : ByteBuf 253
  deriving DecidableEq, Repr

/-- Every output is a function of the state before the step (R29 to R31, 20_memory R48). -/
def State.outputs (s : State) : Outputs :=
  { cuAcc := s.cuAcc, cuChk := ~~~s.cuAcc
    encBusy := s.encBusy, encOutValid := s.encBusy
    encOutByte := if s.encBusy then frameByte s else 0x00
    encOutLast := s.encBusy && atLastByte s
    encStatus := s.encStatus.code
    decRxcnt := s.rxCnt, decStatus := s.decStatus.code
    decId := s.decId, decLen := s.decLen, decErr := s.decErr, decNp := s.decNp, decChk := s.decChk
    decParam := s.pbufD }

end Sys2Proof.Machine
end

