-- ==== Sys2Proof/Machine/PacketDecoder.lean ====
section
/-! DEFINITION. The packet_decoder's commands (42_packet_decoder R152 to R155). -/

namespace Sys2Proof.Machine

/-- Appending a received byte: stored up to the 259th, counted once more, then dropped (R152; log entry 8). -/
def receiveByte (s : State) (byte : Byte) : State :=
  if s.rxCnt.toNat < Config.rxBufSize then (s.setRxBuf s.rxCnt.toNat byte).setRxCnt (s.rxCnt + 1)
  else if s.rxCnt.toNat = Config.rxBufSize then s.setRxCnt (BitVec.ofNat 9 Config.rxOverflow)
  else s

/-- What a `DEC_END` writes into the result registers (R155). -/
def decResult (s : State) : DecResult :=
  let v := verdictHw s
  let n := s.rxCnt.toNat
  let len := s.rxBuf.get 3
  if v.hasFields then
    { status := v, id := s.rxBuf.get 2, len := len, err := s.rxBuf.get 4, np := len - 2
      chk := s.rxBuf.get (n - 1)
      params := ByteBuf.tabulate 253 fun i => if i < (len - 2).toNat then s.rxBuf.get (5 + i) else 0x00 }
  else DecResult.discarded v

/-- `DEC_BYTE` (R152). -/
def execDecByte (byte : Byte) (s : State) : Host.Outcome State Fault Refusal := .next (receiveByte s byte)

/-- `DEC_END`: the verdict and the result registers, then `RXCNT <- 0`; `RXBUF` is not cleared (R153 to R155). -/
def execDecEnd (s : State) : Host.Outcome State Fault Refusal :=
  .next ((s.setResult (decResult s)).setRxCnt 0)

end Sys2Proof.Machine
end

