-- ==== Sys2Proof/Machine/PacketEncoder.lean ====
section
/-! DEFINITION. The packet_encoder's commands and its output stream (41_packet_encoder R123 to R126). -/

namespace Sys2Proof.Machine

/-- An accepted `ENC_START`: the status is always written; only a valid start changes anything else (R124). -/
def startFrame (s : State) (id cmd np : Byte) : State :=
  match startStatus id np with
  | .accepted => (s.latchFrame id cmd np).setEncStatus .accepted
  | c => s.setEncStatus c

/-- `ENC_LOAD`: `PBUF_E[IDX] <- BYTE`; held, without effect, while `ENC_BUSY = 1` (R123, R28; log entry 21). -/
def execEncLoad (idx byte : Byte) (s : State) : Host.Outcome State Fault Refusal :=
  if s.encBusy then .next s else .next (s.setPbufE idx.toNat byte)

/-- `ENC_START` (R124); held, without effect, while `ENC_BUSY = 1` (R28; log entry 21). -/
def execEncStart (id cmd np : Byte) (s : State) : Host.Outcome State Fault Refusal :=
  if s.encBusy then .next s else .next (startFrame s id cmd np)

/-- The emission part of a normal step (R125), and the hold when `out_ready = 0` (R126). Every read is of the
state `pre` before the step; the writes go onto `post`, which holds what the step's command wrote (R33).
The host records the byte it takes (R30, R74). -/
def emission (pre : State) (outReady : Bool) (post : State) : State :=
  if pre.encBusy && outReady then
    { post with
      encAcc :=
        if 2 ≤ pre.encPos.toNat ∧ pre.encPos.toNat ≤ pre.encNp.toNat + 4 then pre.encAcc + frameByte pre
        else post.encAcc
      encBusy := if atLastByte pre then false else post.encBusy
      encPos := if atLastByte pre then 0 else pre.encPos + 1
      taken := post.taken ++ [⟨frameByte pre, atLastByte pre⟩] }
  else post

end Sys2Proof.Machine
end

