-- ==== Sys2Proof/Machine/WireCommands.lean ====
section
/-! DEFINITION. The wire commands (43_wire_commands R180 to R183), each by the `enc.frame` that builds it
(30_encoding R74); the host's ServoReading (R188). -/

namespace Sys2Proof.Machine

/-- The command words of `enc.load i, p0`, `enc.load i+1, p1`, ..., then `enc.start id, cmd, np` (R73, R74). -/
def frameWords (id cmd np : Byte) (i : Nat) : List Byte → List Word
  | [] => [packWord 4 id cmd np]
  | p :: P => packWord 3 0 (BitVec.ofNat 8 i) p :: frameWords id cmd np (i + 1) P

/-- The step in which the host begins `enc.frame id, cmd, p0, ..., pn-1` (R74). A step takes one command word at most
(10_state R11, R33): this one executes the first line, `enc.load 0, p0` (R123), or `enc.start id, cmd, 0` where there
is no parameter (R124). The other lines are the host's next ones, a step each (log entry 4). While `ENC_BUSY = 1` the
first line is held, and nothing happens (R28). More than 255 parameters are no assembler operands, so no line of it is
presented (R73; log entry 6). -/
def encFrame (id cmd : Byte) (P : List Byte) (s : State) : Host.Outcome State Fault Refusal :=
  if P.length > 255 then .refused .operandNotEncodable
  else if s.encBusy then .next s
  else match P with
    | [] => .next (startFrame s id cmd 0x00)
    | p :: P' =>
      .next ((s.setPbufE 0 p).queueLines (frameWords id cmd (BitVec.ofNat 8 P.length) 1 P'))

/-- `FRAME_PING`: `enc.frame id, 0x01`, which is `enc.start id, 0x01, 0` (R180). -/
def execFramePing (id : Byte) (s : State) : Host.Outcome State Fault Refusal := encFrame id 0x01 [] s

/-- `FRAME_READ`: `enc.frame id, 0x02, address, width`, begun by `enc.load 0, address` (R181). -/
def execFrameRead (id address width : Byte) (s : State) : Host.Outcome State Fault Refusal :=
  encFrame id 0x02 [address, width] s

/-- `FRAME_WRITE`: `enc.frame id, 0x03, address, v0, ..., v(w-1)` with the value's bytes least significant first
(R182, R184), begun by `enc.load 0, address`. A value that does not fit is rejected before any byte is built (R184; log
entry 6). -/
def execFrameWrite (id address : Byte) (width value : Nat) (s : State) : Host.Outcome State Fault Refusal :=
  match leBytes value width with
  | some v => encFrame id 0x03 (address :: v) s
  | none => .refused .valueOutOfRange

/-- LENGTH of the response a wire command expects on success: READ's is `width + 2` (R181), WRITE's a zero-payload
acknowledgment (R182); a ping reply's parameters are not given (R180, U9). -/
def successLength : Instr → Option Nat
  | .frameRead _ _ width => some (width.toNat + 2)
  | .frameWrite _ _ _ _ => some 2
  | .framePing _ => none
  | .nop => none
  | .cuClr => none
  | .cuAdd _ => none
  | .encLoad _ _ => none
  | .encStart _ _ _ => none
  | .decByte _ => none
  | .decEnd => none

/-- A reading a host assembles from a response (R188). -/
structure ServoReading where
  position : Int
  speed : Int
  errorFlags : Byte
  deriving DecidableEq, Repr

/-- The little-endian pair at parameter index `i`, as a number or as a multi-turn offset (R185, R186). -/
def pairAt (multiTurn negWhenSet : Bool) (s : State) (i : Nat) : Int :=
  let raw := le16 (s.pbufD.get i) (s.pbufD.get (i + 1))
  if multiTurn then mtOffset negWhenSet (BitVec.ofNat 16 raw) else (raw : Int)

/-- The reading of an OK or SERVO_FAULT response (R188). The spec does not place the two pairs, so their parameter
indices are arguments (log entry 17); there is no reading where a pair lies outside the parameters. -/
def servoReading (multiTurn negWhenSet : Bool) (posAt speedAt : Nat) (s : State) : Option ServoReading :=
  if s.decStatus.hasFields && decide (posAt + 2 ≤ s.decNp.toNat) && decide (speedAt + 2 ≤ s.decNp.toNat) then
    some { position := pairAt multiTurn negWhenSet s posAt
           speed := pairAt multiTurn negWhenSet s speedAt
           errorFlags := s.decErr }
  else none

end Sys2Proof.Machine
end

