-- ==== Sys2Proof/Machine/Dispatch.lean ====
section
/-! DEFINITION. The meaning of every instruction, one arm per constructor. -/

namespace Sys2Proof.Machine

def exec (i : Instr) (s : State) : Host.Outcome State Fault Refusal :=
  match i with
  | .nop => Sys2Proof.Machine.execNop s
  | .cuClr => Sys2Proof.Machine.execCuClr s
  | .cuAdd byte => Sys2Proof.Machine.execCuAdd byte s
  | .encLoad idx byte => Sys2Proof.Machine.execEncLoad idx byte s
  | .encStart id cmd np => Sys2Proof.Machine.execEncStart id cmd np s
  | .decByte byte => Sys2Proof.Machine.execDecByte byte s
  | .decEnd => Sys2Proof.Machine.execDecEnd s
  | .framePing id => Sys2Proof.Machine.execFramePing id s
  | .frameRead id address width => Sys2Proof.Machine.execFrameRead id address width s
  | .frameWrite id address width value => Sys2Proof.Machine.execFrameWrite id address width value s

end Sys2Proof.Machine
end

