-- ==== Sys2Proof/Machine/Cycle.lean ====
section
/-! DEFINITION. One step of the block: what the host drives (10_state R12), step selection (R32), and the normal
step (R33). -/

namespace Sys2Proof.Machine

/-- The script's entries still in force: a finished `drain` is over (R74). -/
def pending (s : State) : List HostAct := skipDrains s.encBusy s.host

/-- The inputs the host drives in the next step (R12). -/
def nextInput (s : State) : StepInput :=
  match pending s with
  | [] => StepInput.idle
  | act :: _ => act.input

/-- An entry is over after the step: a cycle always, a presented command once it is accepted (R73), a `drain` when
`enc_busy = 0` is seen (R74). -/
def actDone (s : State) : HostAct → Bool
  | .cycle _ => true
  | .present c _ => cmdReady s c
  | .drain => false

/-- The script after the step. -/
def remaining (s : State) : List HostAct :=
  match pending s with
  | [] => []
  | act :: acts => if actDone s act then acts else act :: acts

/-- The command part of a normal step (R33, part 1). An accepted command is executed and a held one has no effect
(R28); a reserved opcode is refused (R32, R66). Of a request, the step executes the first line only (10_state R11). A
request that is no wire command is framed all the same: no command code is illegal to the block (R71; log entry 5). -/
def runCommand (s : State) : Command → Host.Outcome State Fault Refusal
  | .word w =>
    match decodeWord w with
    | .instr i => exec i s
    | .reject _ => .refused (.reservedOpcode (opField w))
  | .request r =>
    match decodeRequest r with
    | .instr i => exec i s
    | .reject _ => encFrame r.id r.cmd r.params s

/-- The encoder's part of a normal step on top of the command's (R33, part 2). -/
def withEmission (pre : State) (outReady : Bool) :
    Host.Outcome State Fault Refusal → Host.Outcome State Fault Refusal
  | .next t => .next (emission pre outReady t)
  | .fault r => .fault r
  | .refused r => .refused r

/-- A normal step: the command part, if a command is presented, and the emission part (R33). -/
def normalStep (inp : StepInput) (s : State) : Host.Outcome State Fault Refusal :=
  withEmission s inp.outReady
    (match inp.cmd with
     | none => .next s
     | some c => runCommand s c)

/-- One step with these inputs: a reset step whatever else is presented, else a normal step (R32, R220). -/
def clock (inp : StepInput) (s : State) : Host.Outcome State Fault Refusal :=
  if inp.rst then .next s.resetRegs else normalStep inp s

end Sys2Proof.Machine
end

