-- ==== Sys2Proof/Machine/Step.lean ====
section
/-! DEFINITION. The machine's step, and how an instruction comes to be the next one it runs. -/

namespace Sys2Proof.Machine

/-- One step of the block with the inputs the host drives next (10_state R10, R12, R32). -/
def step (s : State) : Host.Outcome State Fault Refusal :=
  clock (nextInput s) (s.setHost (remaining s))

/-- The state in which the host presents, as the next thing it does, the instruction whose table bits are `w`
(log entries 11 and 12). -/
def State.withFetchWord (s : State) (nbits w : Nat) : State :=
  s.setHost (.present (tableCommand nbits w) false :: s.host)

end Sys2Proof.Machine
end

