-- ==== Sys2Proof/Machine/ControlTable.lean ====
section
/-! DEFINITION. The servo's control table as data (43_wire_commands R187), and the host's writes that place this data in
WRITE parameters. The block never reads the table. -/

namespace Sys2Proof.Machine

/-- A field of a register block. Where the source gives no address or width there is none (R187, U11). -/
structure ControlField where
  name : String
  address : Option Byte
  /-- The width in bytes. -/
  width : Option Nat
  deriving DecidableEq, Repr

/-- A row of the control table (R187). -/
structure ControlRegister where
  name : String
  /-- The address, or a block's first address. -/
  address : Byte
  /-- The width in bytes, where the spec states it (U10). -/
  width : Option Nat
  eepromProtected : Bool
  /-- The fields of a block, in address order, those without an address last. -/
  fields : List ControlField
  /-- What else the source notes. -/
  note : String
  deriving DecidableEq, Repr

/-- ID, address 5. -/
def idRegister : ControlRegister := ⟨"ID", 0x05, none, true, [], ""⟩

/-- min-angle-limit, address 9. -/
def minAngleRegister : ControlRegister :=
  ⟨"min-angle-limit", 0x09, some 2, true, [], "0 with max = 0 selects multi-turn mode"⟩

/-- max-angle-limit, address 11. -/
def maxAngleRegister : ControlRegister := ⟨"max-angle-limit", 0x0B, some 2, true, [], ""⟩

/-- mode, address 33. -/
def modeRegister : ControlRegister := ⟨"mode", 0x21, none, true, [], ""⟩

/-- torque-enable, address 40. The value that means "enabled" is not stated (U10). -/
def torqueRegister : ControlRegister := ⟨"torque-enable", 0x28, none, false, [], "written by set_torque"⟩

/-- The write block from address 42: goal, then speed; where accel lies is not stated. -/
def goalBlock : ControlRegister :=
  ⟨"goal-position/speed/accel block (write)", 0x2A, none, false,
    [⟨"goal", some 0x2A, some 2⟩, ⟨"speed", some 0x2C, some 2⟩, ⟨"accel", none, none⟩],
    "or equivalent present-position/speed read block, whose address is not stated"⟩

/-- The PID block from address 48; a coefficient is one byte, 0 to 255. -/
def pidBlock : ControlRegister :=
  ⟨"PID block", 0x30, some 3, false,
    [⟨"P", some 0x30, some 1⟩, ⟨"I", some 0x31, some 1⟩, ⟨"D", some 0x32, some 1⟩], ""⟩

/-- lock, address 55. -/
def lockRegister : ControlRegister := ⟨"lock", 0x37, none, false, [], "write 0 to unlock, 1 to re-lock"⟩

/-- status, address 65. -/
def statusRegister : ControlRegister := ⟨"status", 0x41, none, false, [], ""⟩

/-- The known registers, in the table's order (R187). -/
def controlTable : List ControlRegister :=
  [idRegister, minAngleRegister, maxAngleRegister, modeRegister, torqueRegister, goalBlock, pidBlock, lockRegister,
    statusRegister]

/-- What a write to the lock register does (R187). -/
inductive LockAction where
  | unlock
  | relock
  deriving DecidableEq, Repr

/-- The value written for it: 0 unlocks, 1 re-locks (R187). -/
def LockAction.value : LockAction → Byte
  | .unlock => 0
  | .relock => 1

/-- Both angle limits 0 select multi-turn mode (R187), in which `servoReading` reads offsets. -/
def selectsMultiTurn (minLimit maxLimit : BitVec 16) : Bool := minLimit == 0 && maxLimit == 0

/-- The two bytes of a 2-byte register, least significant first (R184). -/
def pairBytes (v : BitVec 16) : List Byte := [v.extractLsb' 0 8, v.extractLsb' 8 8]

/-- The WRITE whose value bytes are these, the fields' bytes in address order (R182). -/
def blockWrite (id address : Byte) (bytes : List Byte) : Instr :=
  .frameWrite id address bytes.length (leValue bytes)

/-- Unlock or re-lock, with one value byte (92_eei_decisions D37). -/
def lockWrite (id : Byte) (a : LockAction) : Instr := blockWrite id lockRegister.address [a.value]

/-- The three coefficients (R187). -/
def pidWrite (id p i d : Byte) : Instr := blockWrite id pidBlock.address [p, i, d]

/-- Goal, then speed, as in the source's worked scenario (R187, 41_packet_encoder R129). -/
def goalSpeedWrite (id : Byte) (goal speed : BitVec 16) : Instr :=
  blockWrite id goalBlock.address (pairBytes goal ++ pairBytes speed)

/-- The lower angle limit (R187). -/
def minAngleWrite (id : Byte) (limit : BitVec 16) : Instr := blockWrite id minAngleRegister.address (pairBytes limit)

/-- The upper angle limit (R187). -/
def maxAngleWrite (id : Byte) (limit : BitVec 16) : Instr := blockWrite id maxAngleRegister.address (pairBytes limit)

end Sys2Proof.Machine
end

