-- ==== Sys2Proof/Machine/Assembler.lean ====
section
/-! DEFINITION. The spec's assembler (30_encoding R73) and its pseudo-instructions and host actions (R74). -/

namespace Sys2Proof.Machine

/-- A line of the assembler, its operands as the numbers written (R73). -/
inductive AsmLine where
  | nop
  | cuClr
  | cuAdd (b : Nat)
  | encLoad (i b : Nat)
  | encStart (id cmd np : Nat)
  | decByte (b : Nat)
  | decEnd
  deriving DecidableEq, Repr

/-- An operand must be 0 to 255, or the assembler rejects the line (R73). -/
def operandByte (n : Nat) : Option Byte := if n ≤ 255 then some (BitVec.ofNat 8 n) else none

/-- The command word of a line, ignored bits 0; none where the assembler rejects it (R73). -/
def assemble : AsmLine → Option Word
  | .nop => some 0x00000000
  | .cuClr => some 0x10000000
  | .cuAdd b => (operandByte b).map fun b => 0x20000000 ||| b.setWidth 32
  | .encLoad i b =>
    match operandByte i, operandByte b with
    | some i, some b => some (0x30000000 ||| (i.setWidth 32 <<< 8) ||| b.setWidth 32)
    | _, _ => none
  | .encStart id cmd np =>
    match operandByte id, operandByte cmd, operandByte np with
    | some id, some cmd, some np =>
      some (0x40000000 ||| (id.setWidth 32 <<< 16) ||| (cmd.setWidth 32 <<< 8) ||| np.setWidth 32)
    | _, _, _ => none
  | .decByte b => (operandByte b).map fun b => 0x50000000 ||| b.setWidth 32
  | .decEnd => some 0x60000000

/-- `cu.sum b0, ..., bk-1` (R74). -/
def cuSumLines (bs : List Nat) : List AsmLine := .cuClr :: bs.map .cuAdd

/-- `enc.frame id, cmd, p0, ..., pn-1` (R74). -/
def encFrameLines (id cmd : Nat) (ps : List Nat) : List AsmLine :=
  ps.mapIdx (fun i p => .encLoad i p) ++ [.encStart id cmd ps.length]

/-- `dec.frame b0, ..., bk-1` (R74). -/
def decFrameLines (bs : List Nat) : List AsmLine := bs.map .decByte ++ [.decEnd]

/-- A program: lines, and the host action `drain` (R74). -/
inductive AsmItem where
  | line (l : AsmLine)
  | drain
  deriving DecidableEq, Repr

/-- What the host does for a program: each line's word is presented until it is accepted (R73), with `out_ready`
as the host holds it. None where a line is rejected. -/
def hostActs (outReady : Bool) : List AsmItem → Option (List HostAct)
  | [] => some []
  | .drain :: items => (hostActs outReady items).map (.drain :: ·)
  | .line l :: items =>
    match assemble l, hostActs outReady items with
    | some w, some acts => some (.present (.word w) outReady :: acts)
    | _, _ => none

/-- A blank between the parts of a line (log entry 15). -/
def isBlank (c : Char) : Bool := c == ' ' || c == '\t'

/-- A text without its outer blanks. -/
def trimBlanks (cs : List Char) : List Char :=
  ((cs.dropWhile isBlank).reverse.dropWhile isBlank).reverse

/-- The pieces of a text between commas. -/
def commaPieces (cs : List Char) : List (List Char) :=
  cs.foldr
    (fun c acc =>
      if c == ',' then [] :: acc
      else match acc with
        | [] => [[c]]
        | p :: ps => (c :: p) :: ps)
    [[]]

/-- The value of a digit in a base up to 16. -/
def digitValue (base : Nat) (c : Char) : Option Nat :=
  let v :=
    if c.toNat - 48 ≤ 9 ∧ 48 ≤ c.toNat then some (c.toNat - 48)
    else if 97 ≤ c.toNat ∧ c.toNat ≤ 102 then some (c.toNat - 87)
    else if 65 ≤ c.toNat ∧ c.toNat ≤ 70 then some (c.toNat - 55)
    else none
  match v with
  | some d => if d < base then some d else none
  | none => none

/-- Digits, the most significant first. -/
def digitsValue (base : Nat) (acc : Nat) : List Char → Option Nat
  | [] => some acc
  | c :: cs =>
    match digitValue base c with
    | some d => digitsValue base (acc * base + d) cs
    | none => none

/-- A number in decimal or `0x` hexadecimal (R73). -/
def parseNumber : List Char → Option Nat
  | [] => none
  | ['0', 'x'] => none
  | '0' :: 'x' :: ds => digitsValue 16 0 ds
  | ds => digitsValue 10 0 ds

/-- The operands of a line, separated by commas (R73). -/
def parseOperands (cs : List Char) : Option (List Nat) :=
  if trimBlanks cs = [] then some []
  else (commaPieces cs).mapM fun p => parseNumber (trimBlanks p)

/-- A mnemonic and its operands: a command (R73), a pseudo-instruction or a host action (R74). -/
def asmItems (mnemonic : List Char) (ops : List Nat) : Option (List AsmItem) :=
  let lines (ls : List AsmLine) : Option (List AsmItem) := some (ls.map .line)
  if mnemonic = ['n', 'o', 'p'] then (match ops with | [] => lines [.nop] | _ => none)
  else if mnemonic = ['c', 'u', '.', 'c', 'l', 'r'] then (match ops with | [] => lines [.cuClr] | _ => none)
  else if mnemonic = ['c', 'u', '.', 'a', 'd', 'd'] then (match ops with | [b] => lines [.cuAdd b] | _ => none)
  else if mnemonic = ['c', 'u', '.', 's', 'u', 'm'] then lines (cuSumLines ops)
  else if mnemonic = ['e', 'n', 'c', '.', 'l', 'o', 'a', 'd'] then
    (match ops with | [i, b] => lines [.encLoad i b] | _ => none)
  else if mnemonic = ['e', 'n', 'c', '.', 's', 't', 'a', 'r', 't'] then
    (match ops with | [id, cmd, np] => lines [.encStart id cmd np] | _ => none)
  else if mnemonic = ['e', 'n', 'c', '.', 'f', 'r', 'a', 'm', 'e'] then
    (match ops with | id :: cmd :: ps => lines (encFrameLines id cmd ps) | _ => none)
  else if mnemonic = ['d', 'e', 'c', '.', 'b', 'y', 't', 'e'] then
    (match ops with | [b] => lines [.decByte b] | _ => none)
  else if mnemonic = ['d', 'e', 'c', '.', 'e', 'n', 'd'] then (match ops with | [] => lines [.decEnd] | _ => none)
  else if mnemonic = ['d', 'e', 'c', '.', 'f', 'r', 'a', 'm', 'e'] then lines (decFrameLines ops)
  else if mnemonic = ['d', 'r', 'a', 'i', 'n'] then (match ops with | [] => some [.drain] | _ => none)
  else none

/-- One line of text: a lower-case mnemonic, then its operands (R73, R74; log entry 15). -/
def parseLine (text : List Char) : Option (List AsmItem) :=
  let cs := trimBlanks text
  let mnemonic := cs.takeWhile (!isBlank ·)
  match parseOperands (cs.dropWhile (!isBlank ·)) with
  | some ops => asmItems mnemonic ops
  | none => none

end Sys2Proof.Machine
end

