-- ==== Sys2Proof/Safety.lean ====
section
/-! DEFINITION. The terms claims use: the next state of an outcome, the frame in flight, the invariants of
reachable states (10_state R16, R17, R21, R24, R25; 41_packet_encoder R127), runs of instructions, and what
the host can observe. -/

namespace Sys2Proof.Machine

/-- The next state, if the outcome is one. -/
def next? : Host.Outcome State Fault Refusal → Option State
  | .next t => some t
  | .fault _ => none
  | .refused _ => none

/-- Run instructions one after another, each from the state the one before it left (20_memory R45). -/
def execAll : List Instr → State → Host.Outcome State Fault Refusal
  | [], s => .next s
  | i :: is, s =>
    match exec i s with
    | .next t => execAll is t
    | .fault r => .fault r
    | .refused r => .refused r

/-- Run steps with the given inputs, one after another (20_memory R45). -/
def clockAll : List StepInput → State → Host.Outcome State Fault Refusal
  | [], s => .next s
  | inp :: inps, s =>
    match clock inp s with
    | .next t => clockAll inps t
    | .fault r => .fault r
    | .refused r => .refused r

/-- The instruction a step's inputs present, if they present one and no reset (R12, R32). -/
def presents (inp : StepInput) : Option Instr :=
  if inp.rst then none
  else match inp.cmd with
    | none => none
    | some c => (decodeCommand c).instr?

/-- The bytes of the `CU_ADD` commands presented; a `CU_ADD` is always accepted (R28, R106). -/
def cuAdds (inps : List StepInput) : List Byte :=
  inps.filterMap fun inp =>
    match presents inp with
    | some (.cuAdd b) => some b
    | _ => none

/-- The bytes of the `DEC_BYTE` commands presented; a `DEC_BYTE` is always accepted (R28, R152, R156). -/
def decBytes (inps : List StepInput) : List Byte :=
  inps.filterMap fun inp =>
    match presents inp with
    | some (.decByte b) => some b
    | _ => none

/-- `PBUF_E[i], PBUF_E[i+1], ... <- P`: what the loads of an `enc.frame` amount to (30_encoding R74). -/
def State.loadParams (s : State) (i : Nat) : List Byte → State
  | [] => s
  | v :: P => (s.setPbufE i v).loadParams (i + 1) P

/-- What an `enc.frame` amounts to when all its lines have been accepted (R74, R123, R124). -/
def State.runFrame (s : State) (q : Request) : State :=
  startFrame (s.loadParams 0 q.params) q.id q.cmd (BitVec.ofNat 8 q.params.length)

/-- The bytes a host takes when it takes the whole frame: `enc_out_last` is on the last one only (R127). -/
def outBytes (F : List Byte) : List OutByte :=
  F.mapIdx fun i b => ⟨b, i + 1 == F.length⟩

/-- The parameters the frame in flight reads from `PBUF_E` (R122, R127). -/
def frameParams (s : State) : List Byte := s.pbufE.data.take s.encNp.toNat

/-- The frame `F` of R127 for the operands latched in the encoder: the frame of `build(ENC_ID, ENC_CMD, P)`. -/
def frameInFlight (s : State) : List Byte := frameOf (frameBody s.encId s.encCmd (frameParams s))

/-- The encoder's part of a reachable state: the position and the accumulator are those of the frame in flight
(R16, R17, R127). -/
def EncInv (s : State) : Prop :=
  s.encId.toNat ≤ 253 ∧ s.encNp.toNat ≤ 253 ∧
  (s.encBusy = false → s.encPos = 0) ∧
  (s.encBusy = true →
    s.encPos.toNat ≤ s.encNp.toNat + 5 ∧
    s.encAcc = byteSum8 (slice (frameInFlight s) 2 (s.encPos.toNat - 1)))

/-- The decoder's part of a reachable state: the count is at most 260 (R21); an error verdict leaves every field
0, and OK or SERVO_FAULT leaves the fields of a structurally valid frame (R24, R25, R151, R155). -/
def DecInv (s : State) : Prop :=
  s.rxCnt.toNat ≤ 260 ∧
  (s.decStatus.hasFields = false →
    s.decId = 0 ∧ s.decLen = 0 ∧ s.decErr = 0 ∧ s.decNp = 0 ∧ s.decChk = 0 ∧ s.pbufD = ByteBuf.zeros 253) ∧
  (s.decStatus.hasFields = true →
    s.decNp.toNat ≤ 253 ∧ s.decLen.toNat = s.decNp.toNat + 2 ∧
    (s.decStatus = .ok ↔ s.decErr = 0) ∧
    (∀ i, s.decNp.toNat ≤ i → s.pbufD.get i = 0) ∧
    s.decChk = checksum (frameBody s.decId s.decErr (s.pbufD.data.take s.decNp.toNat)))

/-- The invariant of every reachable state. -/
def Inv (s : State) : Prop := EncInv s ∧ DecInv s

/-- `RXCNT` and `RXBUF` hold the bytes `B` received since the last `DEC_END` or reset (R21, R22, R156). -/
def Received (s : State) (B : List Byte) : Prop :=
  s.rxCnt.toNat = min B.length 260 ∧
  ∀ i, i < min B.length 259 → s.rxBuf.get i = byteAt B i

/-- The result registers hold the outcome of `parse` (R156). -/
def HoldsParse (s : State) (v : Parsed) : Prop :=
  s.decStatus = v.status ∧
  match v with
  | .ok f | .servoFault f =>
    s.decId = f.id ∧ s.decLen = f.len ∧ s.decErr = f.err ∧ s.decNp.toNat = f.params.length ∧
    s.decChk = f.chk ∧ ∀ i, s.pbufD.get i = byteAt f.params i
  | _ =>
    s.decId = 0 ∧ s.decLen = 0 ∧ s.decErr = 0 ∧ s.decNp = 0 ∧ s.decChk = 0 ∧ s.pbufD = ByteBuf.zeros 253

/-- The two states differ at most in stale `RXBUF` entries (R22, U6). -/
def SameButStaleRx (s t : State) : Prop :=
  t = { s with rxBuf := t.rxBuf } ∧ ∀ i, i < min s.rxCnt.toNat 259 → t.rxBuf.get i = s.rxBuf.get i

/-- The same encoder registers (R15 to R20). -/
def SameEncoder (s t : State) : Prop :=
  s.encBusy = t.encBusy ∧ s.encPos = t.encPos ∧ s.encId = t.encId ∧ s.encCmd = t.encCmd ∧ s.encNp = t.encNp ∧
  s.encAcc = t.encAcc ∧ s.encStatus = t.encStatus ∧ s.pbufE = t.pbufE

/-- The same decoder registers (R21 to R25). -/
def SameDecoder (s t : State) : Prop :=
  s.rxCnt = t.rxCnt ∧ s.rxBuf = t.rxBuf ∧ s.decStatus = t.decStatus ∧ s.decId = t.decId ∧ s.decLen = t.decLen ∧
  s.decErr = t.decErr ∧ s.decNp = t.decNp ∧ s.decChk = t.decChk ∧ s.pbufD = t.pbufD

/-- The same host side: what the host will drive and what it has taken. -/
def SameHost (s t : State) : Prop := s.host = t.host ∧ s.taken = t.taken

end Sys2Proof.Machine
end

