-- ==== Sys2Proof/Certificates/Slice0/Obligations.lean ====
section
/-! DEFINITION. The statements for the provers, from the spec's numbered rules. A statement about a step quantifies
over every input the host can drive in it. -/

open Sys2Proof Sys2Proof.Machine

/-! ## Encodings -/

/-- Words and frames written out in 95_test_vectors and 30_encoding R73 decode to the instructions they stand for. -/
def Obligations.WrittenOutEncodingsDecode : Prop :=
  decodeWord 0x00000000 = .instr .nop ∧
  decodeWord 0x10000000 = .instr .cuClr ∧
  decodeWord 0x2ABCDE05 = .instr (.cuAdd 0x05) ∧
  decodeWord 0x300003F4 = .instr (.encLoad 3 0xF4) ∧
  decodeWord 0x40010305 = .instr (.encStart 1 3 5) ∧
  decodeWord 0x500000FF = .instr (.decByte 0xFF) ∧
  decodeWord 0x60000000 = .instr .decEnd ∧
  decodeWord 0x70000000 = .reject (.reservedOpcode 7) ∧
  decodeFrame [0xFF, 0xFF, 0x01, 0x02, 0x01, 0xFB] = .instr (.framePing 1) ∧
  decodeFrame [0xFF, 0xFF, 0x01, 0x04, 0x02, 0x41, 0x01, 0xB6] = .instr (.frameRead 1 0x41 1) ∧
  decodeFrame [0xFF, 0xFF, 0x01, 0x05, 0x03, 0x0B, 0xFF, 0x0F, 0xDD] = .instr (.frameWrite 1 0x0B 2 4095)

/-- R61 to R65: the opcode in bits 31 to 28 selects the command; the operands are the bytes at bits 7 to 0, 15 to 8
and 23 to 16. -/
def Obligations.OpcodeMapDecodes : Prop :=
  ∀ w : Word,
    let op := w.toNat / 2 ^ 28
    let b0 : Byte := BitVec.ofNat 8 w.toNat
    let b1 : Byte := BitVec.ofNat 8 (w.toNat / 2 ^ 8)
    let b2 : Byte := BitVec.ofNat 8 (w.toNat / 2 ^ 16)
    (op = 0 → decodeWord w = .instr .nop) ∧
    (op = 1 → decodeWord w = .instr .cuClr) ∧
    (op = 2 → decodeWord w = .instr (.cuAdd b0)) ∧
    (op = 3 → decodeWord w = .instr (.encLoad b1 b0)) ∧
    (op = 4 → decodeWord w = .instr (.encStart b2 b1 b0)) ∧
    (op = 5 → decodeWord w = .instr (.decByte b0)) ∧
    (op = 6 → decodeWord w = .instr .decEnd) ∧
    (7 ≤ op → decodeWord w = .reject (.reservedOpcode (BitVec.ofNat 4 op)))

/-- R67: words that differ only in ignored bits behave identically in every step; the assembler writes 0 there; and
ignored bits do not make a word reserved. -/
def Obligations.IgnoredBitsHaveNoEffect : Prop :=
  (∀ w v : Word, w &&& usedMask (opField w) = v &&& usedMask (opField w) →
    ∀ (s : State) (r : Bool),
      clock { rst := false, cmd := some (.word w), outReady := r } s =
        clock { rst := false, cmd := some (.word v), outReady := r } s ∧
      wordReady s w = wordReady s v) ∧
  (∀ (l : AsmLine) (w : Word), assemble l = some w → w &&& usedMask (opField w) = w) ∧
  (∀ w : Word, (∃ i, decodeWord w = .instr i) ↔ w.toNat < 7 * 2 ^ 28)

/-- Decoding an encoded well-formed instruction gives it back, for every instruction and every operand value the
encoding admits. -/
def Obligations.DecodeEncodeIsIdentity : Prop :=
  ∀ i : Instr, i.wellFormed = true → ∃ e, encode i = some e ∧ decode e = .instr i

/-- The other direction: a frame that decodes is the one frame that encodes its instruction, and a command word that
decodes is its instruction's word but for the ignored bits. -/
def Obligations.EncodeDecodeIsIdentity : Prop :=
  (∀ (F : List Byte) (i : Instr), decodeFrame F = .instr i → encodeFrame i = some F) ∧
  (∀ (w : Word) (i : Instr), decodeWord w = .instr i → encodeWord i = some (w &&& usedMask (opField w)))

/-! ## The step -/

/-- A step runs the decoded instruction: when the first entry of the host's script presents a command that decodes to
`i`, the step is `exec i` from the state with the script moved on (if the command is accepted), with the emission part
on top of a next state. -/
def Obligations.StepRunsDecodedInstruction : Prop :=
  ∀ (s : State) (c : Command) (r : Bool) (rest : List HostAct) (i : Instr),
    s.host = .present c r :: rest → decodeCommand c = .instr i →
    ∀ u, u = s.setHost (if cmdReady s c then rest else s.host) →
      (∀ t, exec i u = .next t → step s = .next (emission u r t)) ∧
      (∀ e, exec i u = .refused e → step s = .refused e)

/-- 10_state section 1 and 30_encoding section 4: a step takes one command word at most. The step that presents an
`enc.frame` is the step that presents its first line, with the other lines left to the host's next steps, or a step
without a command while `ENC_BUSY = 1`; and in no step does `ENC_POS` or `RXCNT` jump: each stays, advances by one or
returns to 0. (That the host keeps the other lines in its script with `out_ready = 0` is the model's choice, log
entry 4.) -/
def Obligations.OneCommandWordPerStep : Prop :=
  (∀ (s : State) (q : Request) (r : Bool), q.params.length ≤ 255 →
    ∃ (w : Word) (acts : List HostAct),
      hostActs false ((encFrameLines q.id.toNat q.cmd.toNat (q.params.map BitVec.toNat)).map .line) =
        some (.present (.word w) false :: acts) ∧
      clock { rst := false, cmd := some (.request q), outReady := r } s =
        if s.encBusy then clock { rst := false, cmd := none, outReady := r } s
        else clock { rst := false, cmd := some (.word w), outReady := r } (s.setHost (acts ++ s.host))) ∧
  (∀ (inp : StepInput) (s t : State), clock inp s = .next t →
    (t.encPos = s.encPos ∨ t.encPos = s.encPos + 1 ∨ t.encPos = 0) ∧
    (t.rxCnt = s.rxCnt ∨ t.rxCnt = s.rxCnt + 1 ∨ t.rxCnt = 0))

/-- R66, R32: a reserved opcode presented with `rst = 0` is refused; with `rst = 1` the step is a reset step. -/
def Obligations.ReservedOpcodeIsRefused : Prop :=
  ∀ (s : State) (w : Word) (r : Bool), 7 ≤ w.toNat / 2 ^ 28 →
    clock { rst := false, cmd := some (.word w), outReady := r } s =
      .refused (.reservedOpcode (BitVec.ofNat 4 (w.toNat / 2 ^ 28))) ∧
    clock { rst := true, cmd := some (.word w), outReady := r } s = .next s.resetRegs

/-- R220: a step with `rst = 1`, whatever else is presented, leaves every register at its reset value, executes no
command and emits no byte. -/
def Obligations.ResetStepClearsEveryRegister : Prop :=
  ∀ (s : State) (inp : StepInput), inp.rst = true →
    ∃ t, clock inp s = .next t ∧
      t.cuAcc = 0x00 ∧ t.outputs.cuChk = 0xFF ∧
      t.encBusy = false ∧ t.encPos = 0 ∧ t.encId = 0 ∧ t.encCmd = 0 ∧ t.encNp = 0 ∧ t.encAcc = 0 ∧
      t.encStatus.code = 0 ∧ (∀ i, t.pbufE.get i = 0) ∧
      t.rxCnt = 0 ∧ (∀ i, t.rxBuf.get i = 0) ∧ t.decStatus.code = 0 ∧
      t.decId = 0 ∧ t.decLen = 0 ∧ t.decErr = 0 ∧ t.decNp = 0 ∧ t.decChk = 0 ∧ (∀ i, t.pbufD.get i = 0) ∧
      t.host = s.host ∧ t.taken = s.taken

/-- The invariant of `Safety.lean` holds in the reset state. -/
def Obligations.ResetStateMeetsInvariant : Prop := Inv State.reset

/-- Every step keeps the invariant, from any state that meets it and whatever the host drives. -/
def Obligations.EveryStepKeepsInvariant : Prop :=
  ∀ s t : State, Inv s → step s = .next t → Inv t

/-- R32, R200: a step has a next state unless, with `rst = 0`, it presents a reserved opcode or an `enc.frame` whose
parameter count no assembler operand can hold; then it is refused by that name. The block never faults. (The second
refusal is the model's own: log entry 6.) -/
def Obligations.StepHasNextStateUnlessRefused : Prop :=
  ∀ s : State,
    ((nextInput s).rst = true → ∃ t, step s = .next t) ∧
    ((nextInput s).rst = false → (nextInput s).cmd = none → ∃ t, step s = .next t) ∧
    (∀ w, (nextInput s).rst = false → (nextInput s).cmd = some (.word w) →
      (w.toNat < 7 * 2 ^ 28 → ∃ t, step s = .next t) ∧
      (7 * 2 ^ 28 ≤ w.toNat → step s = .refused (.reservedOpcode (opField w)))) ∧
    (∀ q, (nextInput s).rst = false → (nextInput s).cmd = some (.request q) →
      (q.params.length ≤ 255 → ∃ t, step s = .next t) ∧
      (255 < q.params.length → step s = .refused .operandNotEncodable))

/-- R34: in a normal step, `CU_ACC` changes only on `CU_CLR` and `CU_ADD`, the decoder registers only on `DEC_BYTE`
and `DEC_END`, and the encoder registers only on `ENC_LOAD`, `ENC_START` (the first line of an `enc.frame` is one of these) and
emission. -/
def Obligations.NormalStepLeavesOtherRegisters : Prop :=
  ∀ (inp : StepInput) (s t : State), inp.rst = false → clock inp s = .next t →
    (presents inp ≠ some .cuClr → (∀ b, presents inp ≠ some (.cuAdd b)) → t.cuAcc = s.cuAcc) ∧
    (presents inp ≠ some .decEnd → (∀ b, presents inp ≠ some (.decByte b)) → SameDecoder s t) ∧
    ((∀ k b, presents inp ≠ some (.encLoad k b)) → (∀ id c n, presents inp ≠ some (.encStart id c n)) →
      (∀ q, inp.cmd ≠ some (.request q)) → (s.encBusy && inp.outReady) = false → SameEncoder s t)

/-- The three sub-units share no state: what a step does to one sub-unit's registers depends on that sub-unit's
registers and the inputs alone. -/
def Obligations.SubUnitsShareNoState : Prop :=
  ∀ (inp : StepInput) (s s' t t' : State), clock inp s = .next t → clock inp s' = .next t' →
    (s.cuAcc = s'.cuAcc → t.cuAcc = t'.cuAcc) ∧
    (SameEncoder s s' → SameEncoder t t') ∧
    (SameDecoder s s' → SameDecoder t t')

/-- Stale `RXBUF` entries are unobservable: two states that differ only in them have the same outputs and the same
`cmd_ready`, and any step takes them to two such states again. -/
def Obligations.StaleRxEntriesAreUnobservable : Prop :=
  ∀ s s' : State, SameButStaleRx s s' →
    s.outputs = s'.outputs ∧
    (∀ c, cmdReady s c = cmdReady s' c) ∧
    (∀ (inp : StepInput) (t : State), clock inp s = .next t →
      ∃ t', clock inp s' = .next t' ∧ SameButStaleRx t t')

/-- R204: a status code stays until the next command of the same kind is presented, or until reset. The first line of
an `enc.frame` without parameters is an `ENC_START`. -/
def Obligations.StatusStaysUntilNextCommandOfItsKind : Prop :=
  ∀ (inp : StepInput) (s t : State), inp.rst = false → clock inp s = .next t →
    (presents inp ≠ some .decEnd → t.decStatus = s.decStatus) ∧
    ((∀ id c n, presents inp ≠ some (.encStart id c n)) →
      (∀ q, inp.cmd = some (.request q) → q.params ≠ []) → t.encStatus = s.encStatus)

/-- The repeated commands of 20_memory R48: `NOP`, `CU_CLR`, `ENC_LOAD` with the same operands, and `DEC_END` after
`DEC_END` leave the same state when repeated; each `CU_ADD` of a nonzero byte, each `DEC_BYTE` up to the count 260 and
each accepted valid `ENC_START` changes the state again. -/
def Obligations.RepeatedCommands : Prop :=
  (∀ (i : Instr) (s t : State),
    (i = .nop ∨ i = .cuClr ∨ ∃ k b, i = .encLoad k b) → exec i s = .next t → exec i t = .next t) ∧
  (∀ s t u : State, exec .decEnd s = .next t → exec .decEnd t = .next u → exec .decEnd u = .next u) ∧
  (∀ (b : Byte) (s : State), b ≠ 0 → exec (.cuAdd b) s ≠ .next s) ∧
  (∀ (b : Byte) (s : State), s.rxCnt.toNat < 260 → exec (.decByte b) s ≠ .next s) ∧
  (∀ (id cmd n : Byte) (s : State), s.encBusy = false → id.toNat ≤ 253 → n.toNat ≤ 253 →
    exec (.encStart id cmd n) s ≠ .next s)

/-! ## The checksum function and the checksum_unit -/

/-- R101: the checksum is the NOT of the wrapping 8-bit sum, that is 255 minus the sum modulo 256. -/
def Obligations.ChecksumIsNotOfWrappingSum : Prop :=
  ∀ B : List Byte,
    checksum B = ~~~(B.foldl (· + ·) 0x00) ∧ (checksum B).toNat = 255 - (B.map BitVec.toNat).sum % 256

/-- R102, items 1 to 6. -/
def Obligations.ChecksumProperties : Prop :=
  checksum [] = 0xFF ∧
  ((∀ A B : List Byte, A = B → checksum A = checksum B) ∧ checksum [checksum [0x01, 0x02, 0x00]] = 0x03) ∧
  (∀ A B : List Byte, A.Perm B → checksum A = checksum B) ∧
  (∀ B : List Byte, checksum (B ++ [checksum B]) = 0x00 ∧
    ((B.map BitVec.toNat).sum + (checksum B).toNat) % 256 = 0xFF) ∧
  (∀ (A B : List Byte) (b b' : Byte), b ≠ b' → checksum (A ++ [b] ++ B) ≠ checksum (A ++ [b'] ++ B)) ∧
  (checksum [0x01, 0x02] = 0xFC ∧ checksum [0x02, 0x01] = 0xFC ∧ checksum [0x00, 0x03] = 0xFC)

/-- R103: `NOP` changes nothing, and a step that presents it is a step with `cmd_valid = 0`. -/
def Obligations.NopChangesNothing : Prop :=
  ∀ s : State, exec .nop s = .next s ∧
    ∀ (w : Word) (r : Bool), w.toNat < 2 ^ 28 →
      clock { rst := false, cmd := some (.word w), outReady := r } s =
        clock { rst := false, cmd := none, outReady := r } s

/-- R104: `CU_CLR` clears `CU_ACC`, so that `cu_chk` becomes `checksum([])`, and changes nothing else. -/
def Obligations.CuClrClearsAccumulator : Prop :=
  (∀ w : Word, w.toNat / 2 ^ 28 = 1 → decodeWord w = .instr .cuClr) ∧
  ∀ s : State, ∃ t, exec .cuClr s = .next t ∧ t = { s with cuAcc := 0x00 } ∧
    t.outputs.cuChk = 0xFF ∧ t.outputs.cuChk = checksum []

/-- R105: `CU_ADD` adds its byte modulo 256 and changes nothing else; 256 adds of one byte change nothing. -/
def Obligations.CuAddAddsModulo256 : Prop :=
  (∀ w : Word, w.toNat / 2 ^ 28 = 2 → decodeWord w = .instr (.cuAdd (BitVec.ofNat 8 w.toNat))) ∧
  (∀ (s : State) (b : Byte), ∃ t, exec (.cuAdd b) s = .next t ∧
    t = { s with cuAcc := t.cuAcc } ∧ t.cuAcc.toNat = (s.cuAcc.toNat + b.toNat) % 256) ∧
  (∀ (s : State) (b : Byte), execAll (List.replicate 256 (.cuAdd b)) s = .next s)

/-- R106: after an accepted `CU_CLR`, whatever else the steps present but another `CU_CLR` or a reset, `cu_chk` is the
checksum of the bytes added; without the leading `CU_CLR` the sum starts from the old accumulator, and is the checksum
only when that was 0. -/
def Obligations.ChecksumUnitComputesChecksum : Prop :=
  ∀ (inps : List StepInput) (s t : State),
    (∀ inp ∈ inps, inp.rst = false ∧ presents inp ≠ some .cuClr) →
    (∀ first, presents first = some .cuClr → clockAll (first :: inps) s = .next t →
      t.outputs.cuAcc.toNat = ((cuAdds inps).map BitVec.toNat).sum % 256 ∧
      t.outputs.cuChk = checksum (cuAdds inps)) ∧
    (clockAll inps s = .next t →
      t.outputs.cuChk = ~~~(s.cuAcc + BitVec.ofNat 8 ((cuAdds inps).map BitVec.toNat).sum) ∧
      (t.outputs.cuChk = checksum (cuAdds inps) ↔ s.cuAcc = 0))

/-- 30_encoding R74, `cu.sum`: its lines, presented one after another, leave `cu_chk` at the checksum of the bytes,
whatever the accumulator held. -/
def Obligations.CuSumLeavesChecksum : Prop :=
  ∀ (s : State) (B : List Byte) (r : Bool) (rest : List HostAct),
    ∃ acts t, hostActs r ((cuSumLines (B.map BitVec.toNat)).map .line) = some acts ∧
      Host.Core.run Sys2Proof.core (B.length + 1) (s.setHost (acts ++ rest)) = .next t ∧
      t.outputs.cuChk = checksum B ∧ SameDecoder s t ∧ t.host = rest

/-! ## The packet_encoder -/

/-- R28: while `ENC_BUSY = 1` a command word with opcode 3 or 4 is not ready, and its step is the step without a
command; every other word is ready. -/
def Obligations.BusyEncoderHoldsEncCommands : Prop :=
  ∀ (s : State) (w : Word),
    ((w.toNat / 2 ^ 28 = 3 ∨ w.toNat / 2 ^ 28 = 4) → s.encBusy = true →
      wordReady s w = false ∧
      ∀ r, clock { rst := false, cmd := some (.word w), outReady := r } s =
        clock { rst := false, cmd := none, outReady := r } s) ∧
    ((w.toNat / 2 ^ 28 ≠ 3 ∧ w.toNat / 2 ^ 28 ≠ 4) ∨ s.encBusy = false → wordReady s w = true)

/-- R123: an accepted `ENC_LOAD` writes one entry of `PBUF_E` and nothing else; it is held while `ENC_BUSY = 1`. -/
def Obligations.EncLoadWritesOneEntry : Prop :=
  (∀ w : Word, w.toNat / 2 ^ 28 = 3 →
    decodeWord w = .instr (.encLoad (BitVec.ofNat 8 (w.toNat / 2 ^ 8)) (BitVec.ofNat 8 w.toNat))) ∧
  ∀ (s : State) (k b : Byte),
    (s.encBusy = false → ∃ t, exec (.encLoad k b) s = .next t ∧ t = { s with pbufE := t.pbufE } ∧
      t.pbufE.get k.toNat = b ∧ ∀ j, j ≠ k.toNat → t.pbufE.get j = s.pbufE.get j) ∧
    (s.encBusy = true → exec (.encLoad k b) s = .next s)

/-- R124: an accepted `ENC_START` checks the parameter count, then the ID; a rejected start changes only
`ENC_STATUS`; a valid one latches its operands and starts the frame, whose first byte is offered from the next step;
it is held while `ENC_BUSY = 1`. -/
def Obligations.EncStartChecksThenStarts : Prop :=
  (∀ w : Word, w.toNat / 2 ^ 28 = 4 →
    decodeWord w = .instr (.encStart (BitVec.ofNat 8 (w.toNat / 2 ^ 16)) (BitVec.ofNat 8 (w.toNat / 2 ^ 8))
      (BitVec.ofNat 8 w.toNat))) ∧
  ∀ (s : State) (id cmd np : Byte),
    (s.encBusy = false → ∃ t, exec (.encStart id cmd np) s = .next t ∧
      (253 < np.toNat → t = { s with encStatus := t.encStatus } ∧ t.encStatus.code = 2) ∧
      (np.toNat ≤ 253 → 253 < id.toNat → t = { s with encStatus := t.encStatus } ∧ t.encStatus.code = 3) ∧
      (np.toNat ≤ 253 → id.toNat ≤ 253 →
        t = { s with encId := id, encCmd := cmd, encNp := np, encPos := 0, encAcc := 0x00, encBusy := true
                     encStatus := t.encStatus } ∧
        t.encStatus.code = 1 ∧ t.outputs.encOutByte = 0xFF) ∧
      ∀ (c : Command) (r : Bool), decodeCommand c = .instr (.encStart id cmd np) →
        clock { rst := false, cmd := some c, outReady := r } s = .next t) ∧
    (s.encBusy = true → exec (.encStart id cmd np) s = .next s)

/-- R122: the byte offered at each position of the frame. -/
def Obligations.FrameByteAtEachPosition : Prop :=
  ∀ s : State, s.encBusy = true →
    let p := s.encPos.toNat
    let n := s.encNp.toNat
    let offered := s.outputs.encOutByte
    (p = 0 ∨ p = 1 → offered = 0xFF) ∧
    (p = 2 → offered = s.encId) ∧
    (p = 3 → offered.toNat = (n + 2) % 256) ∧
    (p = 4 → offered = s.encCmd) ∧
    (5 ≤ p → p ≤ n + 4 → offered = s.pbufE.get (p - 5)) ∧
    (p = n + 5 → offered = ~~~s.encAcc)

/-- R30: the encoder's outputs, and that the host takes a byte exactly in a step with `enc_out_valid = 1` and
`out_ready = 1`. -/
def Obligations.HostTakesOfferedByte : Prop :=
  ∀ s : State,
    s.outputs.encBusy = s.encBusy ∧ s.outputs.encOutValid = s.encBusy ∧
    (s.encBusy = false → s.outputs.encOutByte = 0x00) ∧
    (s.encBusy = true → s.outputs.encOutByte = frameByte s) ∧
    (s.outputs.encOutLast = true ↔ s.encBusy = true ∧ s.encPos.toNat = s.encNp.toNat + 5) ∧
    s.outputs.encStatus = s.encStatus.code ∧
    ∀ (inp : StepInput) (t : State), clock inp s = .next t →
      t.taken =
        if inp.rst = false ∧ s.outputs.encOutValid = true ∧ inp.outReady = true then
          s.taken ++ [⟨s.outputs.encOutByte, s.outputs.encOutLast⟩]
        else s.taken

/-- R125: what a normal step with `ENC_BUSY = 1` and `out_ready = 1` does to the encoder registers, whatever command
it presents, and the byte the host takes in it; and such a step without a command has a
next state that changes nothing else but the bytes taken. -/
def Obligations.EmissionStepAdvancesFrame : Prop :=
  ∀ s : State, s.encBusy = true →
    let p := s.encPos.toNat
    let n := s.encNp.toNat
    (∀ (inp : StepInput) (t : State), inp.rst = false → inp.outReady = true → clock inp s = .next t →
      t.encAcc = (if 2 ≤ p ∧ p ≤ n + 4 then s.encAcc + s.outputs.encOutByte else s.encAcc) ∧
      t.encBusy = (if p = n + 5 then false else true) ∧
      t.encPos = (if p = n + 5 then 0 else s.encPos + 1) ∧
      t.encId = s.encId ∧ t.encCmd = s.encCmd ∧ t.encNp = s.encNp ∧ t.encStatus = s.encStatus ∧
      t.pbufE = s.pbufE ∧ t.taken = s.taken ++ [⟨s.outputs.encOutByte, s.outputs.encOutLast⟩]) ∧
    (s.outputs.encOutLast = true ↔ p = n + 5) ∧
    (∃ t, clock { rst := false, cmd := none, outReady := true } s = .next t ∧
      t = { s with encAcc := t.encAcc, encBusy := t.encBusy, encPos := t.encPos, taken := t.taken })

/-- R126: while `ENC_BUSY = 1`, a normal step with `out_ready = 0` changes no encoder register, keeps the same byte
offered and takes none, whatever command it presents. -/
def Obligations.EncoderHoldsWithoutReady : Prop :=
  ∀ (inp : StepInput) (s t : State), s.encBusy = true → inp.rst = false → inp.outReady = false →
    clock inp s = .next t →
    SameEncoder s t ∧ t.outputs.encOutByte = s.outputs.encOutByte ∧ t.taken = s.taken

/-- R47: nothing a host presents, but a reset, changes the frame in flight. -/
def Obligations.FrameInFlightCannotChange : Prop :=
  ∀ (inp : StepInput) (s t : State), s.encBusy = true → inp.rst = false → clock inp s = .next t →
    t.encId = s.encId ∧ t.encCmd = s.encCmd ∧ t.encNp = s.encNp ∧ t.pbufE = s.pbufE ∧
    frameInFlight t = frameInFlight s

/-- R127: from an accepted valid `ENC_START`, whatever the later steps present but a reset, the host takes exactly the
bytes of `build(id, cmd, P)`, one per step with `out_ready = 1`, with `enc_out_last` on the last one only; while the
frame is unfinished the encoder stays busy at the position of the next byte, its accumulator is the sum of the body
bytes emitted, and it offers that byte; after `n + 6` such steps it is idle. -/
def Obligations.EncoderEmitsBuiltFrame : Prop :=
  ∀ (s t : State) (c : Command) (r : Bool) (id cmd n : Byte) (F : List Byte) (inps : List StepInput),
    s.encBusy = false → decodeCommand c = .instr (.encStart id cmd n) →
    build id cmd (s.pbufE.data.take n.toNat) = .frame F → n.toNat ≤ 253 →
    (∀ inp ∈ inps, inp.rst = false) →
    clockAll ({ rst := false, cmd := some c, outReady := r } :: inps) s = .next t →
    let k := inps.countP (·.outReady)
    (k ≤ n.toNat + 6 → t.taken = s.taken ++ (outBytes F).take k) ∧
    (k < n.toNat + 6 →
      t.encBusy = true ∧ t.encPos.toNat = k ∧ t.encPos.toNat ≤ n.toNat + 5 ∧
      t.encAcc = BitVec.ofNat 8 ((slice F 2 (k - 1)).map BitVec.toNat).sum ∧
      t.outputs.encOutByte = byteAt F k) ∧
    (k = n.toNat + 6 → inps.getLast?.map (·.outReady) = some true → t.encBusy = false)

/-- R120, R124: what an `ENC_START` reports is what `build` answers for a parameter list of that length. -/
def Obligations.StartStatusIsBuildOutcome : Prop :=
  ∀ (s : State) (id cmd n : Byte) (P : List Byte), s.encBusy = false → P.length = n.toNat →
    ∃ t, exec (.encStart id cmd n) s = .next t ∧ t.encStatus = (build id cmd P).status ∧
      (t.encBusy = true ↔ ∃ F, build id cmd P = .frame F)

/-- 30_encoding R74, `drain`: a started frame, drained, is taken whole in `n + 6` steps, and nothing but the encoder's
registers and the bytes taken has changed. -/
def Obligations.DrainTakesWholeFrame : Prop :=
  ∀ (s : State) (c : Command) (r : Bool) (id cmd n : Byte) (F : List Byte) (rest : List HostAct),
    s.encBusy = false → decodeCommand c = .instr (.encStart id cmd n) → n.toNat ≤ 253 →
    build id cmd (s.pbufE.data.take n.toNat) = .frame F → s.host = .present c r :: .drain :: rest →
    Host.Core.run Sys2Proof.core (n.toNat + 7) s = .next
      { s with encId := id, encCmd := cmd, encNp := n, encPos := 0, encBusy := false
               encAcc := byteSum8 (slice F 2 (n.toNat + 4)), encStatus := .accepted
               taken := s.taken ++ outBytes F, host := .drain :: rest }

/-- R225, U19: a host that never raises `out_ready` leaves the encoder busy for ever, at the same byte, and every
`ENC_LOAD` and `ENC_START` held. -/
def Obligations.NoReadyHangsEncoder : Prop :=
  ∀ (inps : List StepInput) (s t : State), s.encBusy = true →
    (∀ inp ∈ inps, inp.rst = false ∧ inp.outReady = false) → clockAll inps s = .next t →
    SameEncoder s t ∧ t.encBusy = true ∧ t.taken = s.taken ∧
    ∀ w : Word, (w.toNat / 2 ^ 28 = 3 ∨ w.toNat / 2 ^ 28 = 4) → wordReady t w = false

/-- R128: without a reset, an `ENC_LOAD` or the first line of an `enc.frame` with parameters, `PBUF_E` keeps its contents, and a second valid `ENC_START`
with the same operands starts the identical frame. -/
def Obligations.ParameterBufferPersists : Prop :=
  ∀ (inps : List StepInput) (s t : State),
    (∀ inp ∈ inps, inp.rst = false ∧ (∀ k b, presents inp ≠ some (.encLoad k b)) ∧
      ∀ q, inp.cmd = some (.request q) → q.params = []) →
    clockAll inps s = .next t →
    t.pbufE = s.pbufE ∧
    ∀ (id cmd n : Byte) (s' t' : State), s.encBusy = false → t.encBusy = false → id.toNat ≤ 253 → n.toNat ≤ 253 →
      exec (.encStart id cmd n) s = .next s' → exec (.encStart id cmd n) t = .next t' →
      frameInFlight s' = frameInFlight t'

/-- R121: the shape of a built frame. -/
def Obligations.BuiltFrameShape : Prop :=
  ∀ (id cmd : Byte) (P F : List Byte), build id cmd P = .frame F →
    let np := P.length
    F.length = np + 6 ∧ 6 ≤ F.length ∧ F.length ≤ 259 ∧
    (byteAt F 3).toNat = np + 2 ∧ 2 ≤ (byteAt F 3).toNat ∧ (byteAt F 3).toNat ≤ 255 ∧
    byteAt F 0 = 0xFF ∧ byteAt F 1 = 0xFF ∧ byteAt F 2 = id ∧ byteAt F 4 = cmd ∧
    (∀ i, i < np → byteAt F (5 + i) = byteAt P i) ∧
    byteAt F (np + 5) = checksum (slice F 2 (np + 4)) ∧
    checksum (slice F 2 (np + 5)) = 0x00

/-- R120 and R129: `build`'s three outcomes, in their order, and the worked frame with the address byte. -/
def Obligations.BuildOutcomes : Prop :=
  (∀ (id cmd : Byte) (P : List Byte),
    (253 < P.length → build id cmd P = .errNParams) ∧
    (P.length ≤ 253 → 253 < id.toNat → build id cmd P = .errId) ∧
    (P.length ≤ 253 → id.toNat ≤ 253 →
      build id cmd P = .frame ([0xFF, 0xFF] ++ ([id, BitVec.ofNat 8 (P.length + 2), cmd] ++ P) ++
        [checksum ([id, BitVec.ofNat 8 (P.length + 2), cmd] ++ P)]))) ∧
  build 1 3 [0x2A, 0x00, 0x08, 0xF4, 0x01] =
    .frame [0xFF, 0xFF, 0x01, 0x07, 0x03, 0x2A, 0x00, 0x08, 0xF4, 0x01, 0xCD]

/-! ## The packet_decoder -/

/-- R152: a received byte is stored and counted up to the 259th, then counted once, then dropped; nothing else
changes. -/
def Obligations.DecByteAppends : Prop :=
  (∀ w : Word, w.toNat / 2 ^ 28 = 5 → decodeWord w = .instr (.decByte (BitVec.ofNat 8 w.toNat))) ∧
  ∀ (s : State) (b : Byte), ∃ t, exec (.decByte b) s = .next t ∧
    t = { s with rxBuf := t.rxBuf, rxCnt := t.rxCnt } ∧
    (s.rxCnt.toNat < 259 → t.rxCnt.toNat = s.rxCnt.toNat + 1 ∧ t.rxBuf.get s.rxCnt.toNat = b ∧
      ∀ j, j ≠ s.rxCnt.toNat → t.rxBuf.get j = s.rxBuf.get j) ∧
    (s.rxCnt.toNat = 259 → t.rxCnt.toNat = 260 ∧ t.rxBuf = s.rxBuf) ∧
    (s.rxCnt.toNat = 260 → t = s)

/-- R153 to R155: the verdict, in the order of its checks, the result registers and `PBUF_D` it leaves, `RXCNT`
cleared, `RXBUF` kept, and nothing else changed. -/
def Obligations.DecEndWritesVerdictAndFields : Prop :=
  (∀ w : Word, w.toNat / 2 ^ 28 = 6 → decodeWord w = .instr .decEnd) ∧
  ∀ s : State, ∃ t, exec .decEnd s = .next t ∧
    t = { s with rxCnt := 0, decStatus := t.decStatus, decId := t.decId, decLen := t.decLen, decErr := t.decErr
                 decNp := t.decNp, decChk := t.decChk, pbufD := t.pbufD } ∧
    let n := s.rxCnt.toNat
    let L := (s.rxBuf.get 3).toNat
    t.decStatus.code =
      (if n < 6 then 4
       else if s.rxBuf.get 0 ≠ 0xFF ∨ s.rxBuf.get 1 ≠ 0xFF then 3
       else if n ≠ L + 4 then 4
       else if s.rxBuf.get (n - 1) ≠ checksum (slice s.rxBuf.data 2 (n - 2)) then 5
       else if s.rxBuf.get 4 ≠ 0x00 then 2
       else 1) ∧
    (t.decStatus.code = 1 ∨ t.decStatus.code = 2 →
      t.decId = s.rxBuf.get 2 ∧ t.decLen = s.rxBuf.get 3 ∧ t.decErr = s.rxBuf.get 4 ∧ t.decNp.toNat = L - 2 ∧
      t.decChk = s.rxBuf.get (n - 1) ∧
      ∀ i, i < 253 → t.pbufD.get i = if i < L - 2 then s.rxBuf.get (5 + i) else 0x00) ∧
    (t.decStatus.code = 3 ∨ t.decStatus.code = 4 ∨ t.decStatus.code = 5 →
      t.decId = 0 ∧ t.decLen = 0 ∧ t.decErr = 0 ∧ t.decNp = 0 ∧ t.decChk = 0 ∧ ∀ i, t.pbufD.get i = 0x00)

/-- R21, R22: whatever the steps present, `RXCNT` and `RXBUF` hold the bytes received since the last `DEC_END` or
reset. -/
def Obligations.ReceivedBytesAreHeld : Prop :=
  Received State.reset [] ∧
  ∀ (inp : StepInput) (s t : State) (B : List Byte), Received s B → clock inp s = .next t →
    (inp.rst = true → Received t []) ∧
    (presents inp = some .decEnd → Received t []) ∧
    (∀ b, presents inp = some (.decByte b) → Received t (B ++ [b])) ∧
    (inp.rst = false → presents inp ≠ some .decEnd → (∀ b, presents inp ≠ some (.decByte b)) → Received t B)

/-- R156: from an empty buffer, whatever the steps present but a reset or a `DEC_END`, the `DEC_END` that ends the buffer
writes the outcome of `parse` on all the bytes received, however many there were. -/
def Obligations.DecEndEqualsParse : Prop :=
  ∀ (inps : List StepInput) (s t : State), s.rxCnt = 0 →
    (∀ inp ∈ inps, inp.rst = false ∧ presents inp ≠ some .decEnd) → clockAll inps s = .next t →
    ∃ u, exec .decEnd t = .next u ∧ HoldsParse u (parse (decBytes inps))

/-- 30_encoding R74, `dec.frame`, with R156: its lines, presented one after another from an empty buffer, leave the
outcome of `parse`, whatever the encoder emits meanwhile. -/
def Obligations.DecFrameLeavesParse : Prop :=
  ∀ (s : State) (B : List Byte) (r : Bool) (rest : List HostAct), s.rxCnt = 0 →
    ∃ acts t, hostActs r ((decFrameLines (B.map BitVec.toNat)).map .line) = some acts ∧
      Host.Core.run Sys2Proof.core (B.length + 1) (s.setHost (acts ++ rest)) = .next t ∧
      HoldsParse t (parse B) ∧ t.cuAcc = s.cuAcc ∧ t.rxCnt = 0 ∧ t.host = rest

/-- The facts about `parse` of 42_packet_decoder section 1. The facts about a buffer that is too long and about LENGTH 0
and 1 are stated for a good preamble: with a bad one, `parse` itself says FRAMING_ERROR first. -/
def Obligations.ParseFacts : Prop :=
  (∀ (B : List Byte) (f : Fields), parse B = .ok f ∨ parse B = .servoFault f →
    6 ≤ B.length ∧ B.length ≤ 259 ∧ 2 ≤ f.len.toNat ∧ f.params.length = f.len.toNat - 2 ∧
    f.params.length ≤ 253 ∧ f.chk = checksum (slice B 2 (B.length - 2))) ∧
  (∀ B : List Byte, B.length ≤ 5 → parse B = .truncatedFrame) ∧
  (∀ B : List Byte, (byteAt B 3).toNat + 4 < B.length → byteAt B 0 = 0xFF → byteAt B 1 = 0xFF →
    parse B = .truncatedFrame) ∧
  (∀ B : List Byte, 6 ≤ B.length → (byteAt B 3).toNat ≤ 1 → byteAt B 0 = 0xFF → byteAt B 1 = 0xFF →
    parse B = .truncatedFrame)

/-- R157: flipping one bit of one byte of a structurally valid buffer is always detected, with the verdict of the
byte's place. -/
def Obligations.SingleBitFlipIsDetected : Prop :=
  ∀ (B : List Byte) (f : Fields) (i k : Nat), parse B = .ok f ∨ parse B = .servoFault f → i < B.length → k < 8 →
    parse (B.set i (byteAt B i ^^^ (1#8 <<< k))) =
      if i = 0 ∨ i = 1 then .framingError
      else if i = 3 then .truncatedFrame
      else .checksumError

/-- R158: a built frame, looped back, parses to its own fields, with the command byte read as the error byte; the
acknowledgment `build(id, 0x00, [])` parses to OK. -/
def Obligations.BuiltFrameLoopsBack : Prop :=
  (∀ (id cmd : Byte) (P F : List Byte), build id cmd P = .frame F →
    ∃ f : Fields, parse F = (if cmd = 0 then .ok f else .servoFault f) ∧
      f.id = id ∧ f.err = cmd ∧ f.params = P ∧ f.len.toNat = P.length + 2 ∧ f.chk = checksum (slice F 2 (F.length - 2))) ∧
  (∀ id : Byte, id.toNat ≤ 253 →
    build id 0x00 [] = .frame [0xFF, 0xFF, id, 0x02, 0x00, checksum [id, 0x02, 0x00]] ∧
    ∃ f : Fields, parse [0xFF, 0xFF, id, 0x02, 0x00, checksum [id, 0x02, 0x00]] = .ok f ∧ f.id = id)

/-- R159: the decoder does not look at the ID: a structurally valid response with any ID, 254 and 255 too, parses like
any other. -/
def Obligations.ParseDoesNotCheckId : Prop :=
  (∀ (id err : Byte) (P : List Byte), P.length ≤ 253 →
    ∃ f : Fields, parse (frameOf (frameBody id err P)) = (if err = 0 then .ok f else .servoFault f) ∧ f.id = id) ∧
  parse [0xFF, 0xFF, 0xFE, 0x02, 0x00, 0xFF] =
    .ok { id := 0xFE, len := 0x02, err := 0x00, params := [], chk := 0xFF }

/-- R228: a response fed with trailing bytes, or only its first part, is TRUNCATED_FRAME. -/
def Obligations.WrongBufferBoundsAreTruncated : Prop :=
  ∀ (A : List Byte) (f : Fields), parse A = .ok f ∨ parse A = .servoFault f →
    (∀ B : List Byte, B ≠ [] → parse (A ++ B) = .truncatedFrame) ∧
    (∀ k, k < A.length → parse (A.take k) = .truncatedFrame)

/-! ## The wire commands and the payload helpers -/

/-- R180: `FRAME_PING` is `enc.start id, 0x01, 0`: it starts the frame `FF FF id 02 01 checksum`, reports ERR_ID for ID
254 and 255, and is held while `ENC_BUSY = 1`; the reply without parameters parses to OK. -/
def Obligations.FramePingStartsPing : Prop :=
  ∀ (s : State) (id : Byte),
    exec (.framePing id) s = exec (.encStart id 0x01 0) s ∧
    (s.encBusy = false → id.toNat ≤ 253 → ∃ t, exec (.framePing id) s = .next t ∧
      t = { s with encId := id, encCmd := 0x01, encNp := 0, encPos := 0, encAcc := 0, encBusy := true
                   encStatus := .accepted } ∧
      frameInFlight t = [0xFF, 0xFF, id, 0x02, 0x01, checksum [id, 0x02, 0x01]]) ∧
    (s.encBusy = false → 253 < id.toNat → exec (.framePing id) s = .next { s with encStatus := .errId }) ∧
    (s.encBusy = true → exec (.framePing id) s = .next s) ∧
    (id.toNat ≤ 253 →
      encodeFrame (.framePing id) = some [0xFF, 0xFF, id, 0x02, 0x01, checksum [id, 0x02, 0x01]]) ∧
    parse [0xFF, 0xFF, id, 0x02, 0x00, checksum [id, 0x02, 0x00]] =
      .ok { id := id, len := 0x02, err := 0x00, params := [], chk := checksum [id, 0x02, 0x00] }

/-- R181: the step of `FRAME_READ` is `enc.load 0, address`, with `enc.load 1, width` and `enc.start id, 0x02, 2` left
to the host's next steps; it changes nothing else, and is held while `ENC_BUSY = 1`. The three steps from the request
on load address and width and start the frame `FF FF id 04 02 address width checksum` for any width, or report ERR_ID.
The response has LENGTH `width + 2`. (That the other lines stand in the host's script with `out_ready = 0` is the model's
choice, log entries 1 and 4.) -/
def Obligations.FrameReadStartsRead : Prop :=
  ∀ (s : State) (id address width : Byte),
    decodeCommand (.request ⟨id, 0x02, [address, width]⟩) = .instr (.frameRead id address width) ∧
    (s.encBusy = false → ∃ t load start, exec (.frameRead id address width) s = .next t ∧
      t = { s with pbufE := t.pbufE, host := t.host } ∧
      t.pbufE.get 0 = address ∧ (∀ j, 1 ≤ j → t.pbufE.get j = s.pbufE.get j) ∧
      assemble (.encLoad 1 width.toNat) = some load ∧ assemble (.encStart id.toNat 2 2) = some start ∧
      t.host = [.present (.word load) false, .present (.word start) false] ++ s.host) ∧
    (s.encBusy = true → exec (.frameRead id address width) s = .next s) ∧
    (∀ (r : Bool) (rest : List HostAct), s.encBusy = false →
      s.host = .present (.request ⟨id, 0x02, [address, width]⟩) r :: rest →
      ∃ u, Host.Core.run Sys2Proof.core 3 s = .next u ∧
        u.pbufE.get 0 = address ∧ u.pbufE.get 1 = width ∧ (∀ j, 2 ≤ j → u.pbufE.get j = s.pbufE.get j) ∧
        (id.toNat ≤ 253 →
          u = { s with encId := id, encCmd := 0x02, encNp := 2, encPos := 0, encAcc := 0, encBusy := true
                       encStatus := .accepted, pbufE := u.pbufE, host := rest } ∧
          frameInFlight u =
            [0xFF, 0xFF, id, 0x04, 0x02, address, width, checksum [id, 0x04, 0x02, address, width]]) ∧
        (253 < id.toNat → u = { s with encStatus := .errId, pbufE := u.pbufE, host := rest })) ∧
    successLength (.frameRead id address width) = some (width.toNat + 2)

/-- R182: the step of `FRAME_WRITE` is `enc.load 0, address`, with the loads of the value's bytes, least significant
first, and `enc.start id, 0x03, width + 1` left to the host's next steps; it changes nothing else, and is held while
`ENC_BUSY = 1`. For widths up to 252 the `width + 2` steps from the request on load the address and the bytes and start
the frame of LENGTH `width + 3` with them, or report ERR_ID. (That the other lines stand in the host's script with
`out_ready = 0` is the model's choice, log entries 1 and 4.) -/
def Obligations.FrameWriteStartsWrite : Prop :=
  ∀ (s : State) (id address : Byte) (width value : Nat), width ≤ 254 → value < 256 ^ width →
    ∃ v : List Byte, leBytes value width = some v ∧
      decodeCommand (.request ⟨id, 0x03, address :: v⟩) = .instr (.frameWrite id address width value) ∧
      (s.encBusy = false → ∃ t acts, exec (.frameWrite id address width value) s = .next t ∧
        t = { s with pbufE := t.pbufE, host := t.host } ∧
        t.pbufE.get 0 = address ∧ (∀ j, 1 ≤ j → t.pbufE.get j = s.pbufE.get j) ∧
        hostActs false
          ((v.mapIdx (fun k (b : Byte) => AsmLine.encLoad (k + 1) b.toNat) ++ [AsmLine.encStart id.toNat 3 (width + 1)]).map
            AsmItem.line) =
          some acts ∧
        t.host = acts ++ s.host) ∧
      (s.encBusy = true → exec (.frameWrite id address width value) s = .next s) ∧
      (∀ (r : Bool) (rest : List HostAct), width ≤ 252 → s.encBusy = false →
        s.host = .present (.request ⟨id, 0x03, address :: v⟩) r :: rest →
        ∃ u, Host.Core.run Sys2Proof.core (width + 2) s = .next u ∧
          u.pbufE.get 0 = address ∧
          (∀ k, k < width → (u.pbufE.get (k + 1)).toNat = value / 256 ^ k % 256) ∧
          (∀ j, width < j → u.pbufE.get j = s.pbufE.get j) ∧
          (id.toNat ≤ 253 →
            u = { s with encId := id, encCmd := 0x03, encNp := BitVec.ofNat 8 (width + 1), encPos := 0, encAcc := 0
                         encBusy := true, encStatus := .accepted, pbufE := u.pbufE, host := rest } ∧
            frameInFlight u =
              [0xFF, 0xFF] ++ ([id, BitVec.ofNat 8 (width + 3), 0x03, address] ++ v) ++
                [checksum ([id, BitVec.ofNat 8 (width + 3), 0x03, address] ++ v)]) ∧
          (253 < id.toNat → u = { s with encStatus := .errId, pbufE := u.pbufE, host := rest })) ∧
      successLength (.frameWrite id address width value) = some 2

/-- The ends of `FRAME_WRITE`'s ranges: a value that does not fit its width is rejected before any byte is built (R184);
of 254 or 255 parameters each is loaded into its entry and no other, a step each, and the start then reports ERR_NPARAMS
(R124); more are no assembler operands (R73; log entry 6). -/
def Obligations.FrameWriteOutOfRange : Prop :=
  ∀ (s : State) (id address : Byte) (width value : Nat),
    (256 ^ width ≤ value → exec (.frameWrite id address width value) s = .refused .valueOutOfRange) ∧
    (value < 256 ^ width → 255 ≤ width →
      exec (.frameWrite id address width value) s = .refused .operandNotEncodable) ∧
    (∀ (v : List Byte) (r : Bool) (rest : List HostAct), leBytes value width = some v → 253 ≤ width → width ≤ 254 →
      s.encBusy = false → s.host = .present (.request ⟨id, 0x03, address :: v⟩) r :: rest →
      ∃ u, Host.Core.run Sys2Proof.core (width + 2) s = .next u ∧
        u = { s with encStatus := .errNParams, pbufE := u.pbufE, host := rest } ∧
        u.pbufE.get 0 = address ∧
        (∀ k, k < width → (u.pbufE.get (k + 1)).toNat = value / 256 ^ k % 256) ∧
        (∀ j, width < j → u.pbufE.get j = s.pbufE.get j))

/-- A request, of a wire command or of any other command code, runs as the lines of its `enc.frame` (30_encoding R74):
from an idle encoder the run of one step a line that begins with the request, and the run that presents the assembled
lines, whatever `out_ready` is in either, end in the same state: the parameters loaded, the start executed, nothing else
changed and the script at what follows. -/
def Obligations.RequestRunsItsLines : Prop :=
  ∀ (s : State) (q : Request) (r r' : Bool) (rest : List HostAct), s.encBusy = false → q.params.length ≤ 255 →
    ∃ acts, hostActs r' ((encFrameLines q.id.toNat q.cmd.toNat (q.params.map BitVec.toNat)).map .line) = some acts ∧
      Host.Core.run Sys2Proof.core (q.params.length + 1) (s.setHost (.present (.request q) r :: rest)) =
        .next ((s.runFrame q).setHost rest) ∧
      Host.Core.run Sys2Proof.core (q.params.length + 1) (s.setHost (acts ++ rest)) =
        .next ((s.runFrame q).setHost rest)

/-- R184 and R185: the bytes of a value that fits, least significant first; no result for one that does not; and
`le_value` is their inverse both ways. -/
def Obligations.LittleEndianBytesAndValue : Prop :=
  (∀ value w : Nat, value < 256 ^ w → ∃ bs, leBytes value w = some bs ∧ bs.length = w ∧
    (∀ k, k < w → (byteAt bs k).toNat = value / 256 ^ k % 256) ∧ leValue bs = value) ∧
  (∀ value w : Nat, 256 ^ w ≤ value → leBytes value w = none) ∧
  (∀ bs : List Byte, leValue bs < 256 ^ bs.length ∧ leBytes (leValue bs) bs.length = some bs) ∧
  (∀ lo hi : Byte, le16 lo hi = leValue [lo, hi] ∧ le16 lo hi = lo.toNat + 256 * hi.toNat ∧ le16 lo hi ≤ 65535)

/-- R186: `mt_offset` for both values of the open parameter. -/
def Obligations.MultiTurnOffset : Prop :=
  ∀ raw : BitVec 16,
    (raw.toNat < 32768 → mtOffset true raw = raw.toNat ∧ mtOffset false raw = -(raw.toNat : Int)) ∧
    (32768 ≤ raw.toNat →
      mtOffset true raw = -((raw.toNat : Int) - 32768) ∧ mtOffset false raw = (raw.toNat : Int) - 32768) ∧
    (∀ neg, -32767 ≤ mtOffset neg raw ∧ mtOffset neg raw ≤ 32767) ∧
    (∀ neg, mtOffset neg 0x8000 = 0 ∧ mtOffset neg 0x0000 = 0)

/-- R188: a reading is made from an OK or SERVO_FAULT result whose parameters hold both pairs, and from no other; its
flags are `DEC_ERR`. Where the pairs lie is the caller's argument (log entry 17). -/
def Obligations.ServoReadingFromResult : Prop :=
  ∀ (s : State) (neg : Bool) (p q : Nat),
    (s.decStatus.code = 1 ∨ s.decStatus.code = 2 → p + 2 ≤ s.decNp.toNat → q + 2 ≤ s.decNp.toNat →
      servoReading false neg p q s = some
        { position := (s.pbufD.get p).toNat + 256 * (s.pbufD.get (p + 1)).toNat
          speed := (s.pbufD.get q).toNat + 256 * (s.pbufD.get (q + 1)).toNat
          errorFlags := s.decErr } ∧
      ∃ v, servoReading true neg p q s = some v ∧ v.errorFlags = s.decErr ∧
        v.position = mtOffset neg (BitVec.ofNat 16 (le16 (s.pbufD.get p) (s.pbufD.get (p + 1)))) ∧
        v.speed = mtOffset neg (BitVec.ofNat 16 (le16 (s.pbufD.get q) (s.pbufD.get (q + 1))))) ∧
    (s.decStatus.code = 0 ∨ s.decStatus.code = 3 ∨ s.decStatus.code = 4 ∨ s.decStatus.code = 5 →
      ∀ m, servoReading m neg p q s = none)

/-! ## The assembler and the outputs -/

/-- R73: the word of each line, that an operand above 255 rejects the line, and that a line's word is presented in
consecutive steps until it is accepted. -/
def Obligations.AssemblerWords : Prop :=
  (assemble .nop = some 0x00000000 ∧ assemble .cuClr = some 0x10000000 ∧ assemble .decEnd = some 0x60000000) ∧
  (∀ a b c : Nat,
    assemble (.cuAdd a) = (if a ≤ 255 then some (BitVec.ofNat 32 (0x20000000 + a)) else none) ∧
    assemble (.decByte a) = (if a ≤ 255 then some (BitVec.ofNat 32 (0x50000000 + a)) else none) ∧
    assemble (.encLoad a b) =
      (if a ≤ 255 ∧ b ≤ 255 then some (BitVec.ofNat 32 (0x30000000 + a * 2 ^ 8 + b)) else none) ∧
    assemble (.encStart a b c) =
      (if a ≤ 255 ∧ b ≤ 255 ∧ c ≤ 255 then some (BitVec.ofNat 32 (0x40000000 + a * 2 ^ 16 + b * 2 ^ 8 + c))
       else none)) ∧
  (∀ (s t : State) (w : Word) (r : Bool) (rest : List HostAct), s.host = .present (.word w) r :: rest →
    step s = .next t → t.host = if wordReady s w then rest else s.host)

/-- R29 and R31: the outputs of the checksum_unit and of the packet_decoder. -/
def Obligations.UnitOutputs : Prop :=
  ∀ s : State,
    s.outputs.cuAcc = s.cuAcc ∧ s.outputs.cuChk.toNat = 255 - s.cuAcc.toNat ∧
    s.outputs.decRxcnt = s.rxCnt ∧ s.outputs.decStatus = s.decStatus.code ∧
    s.outputs.decId = s.decId ∧ s.outputs.decLen = s.decLen ∧ s.outputs.decErr = s.decErr ∧
    s.outputs.decNp = s.decNp ∧ s.outputs.decChk = s.decChk ∧
    ∀ i, i < 253 → s.outputs.decParam.get i = s.pbufD.get i

/-- The writes of the source's named sequences (43_wire_commands R187), for every ID, coefficient, goal, speed and limit:
their frames carry the table's address and the data in address order. -/
def Obligations.ControlTableWrites : Prop :=
  (∀ id p i d : Byte, id.toNat ≤ 253 →
    encodeFrame (lockWrite id .unlock) =
      some [0xFF, 0xFF, id, 0x04, 0x03, 0x37, 0x00, checksum [id, 0x04, 0x03, 0x37, 0x00]] ∧
    encodeFrame (lockWrite id .relock) =
      some [0xFF, 0xFF, id, 0x04, 0x03, 0x37, 0x01, checksum [id, 0x04, 0x03, 0x37, 0x01]] ∧
    encodeFrame (pidWrite id p i d) =
      some [0xFF, 0xFF, id, 0x06, 0x03, 0x30, p, i, d, checksum [id, 0x06, 0x03, 0x30, p, i, d]]) ∧
  (∀ (id : Byte) (v w : BitVec 16), id.toNat ≤ 253 →
    ∃ vLo vHi wLo wHi : Byte, v.toNat = le16 vLo vHi ∧ w.toNat = le16 wLo wHi ∧
      encodeFrame (goalSpeedWrite id v w) =
        some [0xFF, 0xFF, id, 0x07, 0x03, 0x2A, vLo, vHi, wLo, wHi,
          checksum [id, 0x07, 0x03, 0x2A, vLo, vHi, wLo, wHi]] ∧
      encodeFrame (minAngleWrite id v) =
        some [0xFF, 0xFF, id, 0x05, 0x03, 0x09, vLo, vHi, checksum [id, 0x05, 0x03, 0x09, vLo, vHi]] ∧
      encodeFrame (maxAngleWrite id v) =
        some [0xFF, 0xFF, id, 0x05, 0x03, 0x0B, vLo, vHi, checksum [id, 0x05, 0x03, 0x0B, vLo, vHi]]) ∧
  (∀ lo hi : BitVec 16, selectsMultiTurn lo hi = true ↔ lo = 0 ∧ hi = 0)
end

