-- ==== Sys2Proof/Laws/Buffer.lean ====
section
/-! SUPPORT. Reading a buffer after a write, at reset and after a tabulated write. -/

namespace Sys2Proof

variable {n : Nat}

/-- Two buffers with the same entries are the same buffer. -/
theorem ByteBuf.ext_get {a b : ByteBuf n} (h : ∀ i, i < n → a.get i = b.get i) : a = b := by
  obtain ⟨l, hl⟩ := a
  obtain ⟨m, hm⟩ := b
  have : l = m := by
    apply List.ext_getElem (by omega)
    intro i h1 h2
    have := h i (by omega)
    simpa [ByteBuf.get, List.getD_eq_getElem?_getD, h1, h2] using this
  subst this
  rfl

/-- Nothing is stored beyond a buffer's last entry. -/
theorem ByteBuf.get_of_le (b : ByteBuf n) {i : Nat} (h : n ≤ i) : b.get i = 0 := by
  have := b.size
  simp only [ByteBuf.get, List.getD_eq_getElem?_getD]
  rw [List.getElem?_eq_none (by omega)]
  rfl

/-- Inside the buffer, `get` reads the entry. -/
theorem ByteBuf.get_eq_getElem (b : ByteBuf n) {i : Nat} (h : i < n) :
    b.get i = b.data[i]'(by rw [b.size]; exact h) := by
  simp [ByteBuf.get, List.getD_eq_getElem?_getD, b.size, h]

@[simp] theorem ByteBuf.get_set_self (b : ByteBuf n) {i : Nat} (v : Byte) (h : i < n) : (b.set i v).get i = v := by
  simp [ByteBuf.get, ByteBuf.set, List.getD_eq_getElem?_getD, b.size, h]

theorem ByteBuf.get_set_of_ne (b : ByteBuf n) {i j : Nat} (v : Byte) (h : j ≠ i) : (b.set i v).get j = b.get j := by
  simp [ByteBuf.get, ByteBuf.set, List.getD_eq_getElem?_getD, List.getElem?_set_ne (Ne.symm h)]

@[simp] theorem ByteBuf.get_zeros (i : Nat) : (ByteBuf.zeros n).get i = 0 := by
  by_cases h : i < n <;> simp [ByteBuf.get, ByteBuf.zeros, List.getD_eq_getElem?_getD, h]

theorem ByteBuf.get_tabulate (f : Nat → Byte) {i : Nat} (h : i < n) : (ByteBuf.tabulate n f).get i = f i := by
  simp [ByteBuf.get, ByteBuf.tabulate, List.getD_eq_getElem?_getD, h]

@[simp] theorem ByteBuf.data_set (b : ByteBuf n) (i : Nat) (v : Byte) : (b.set i v).data = b.data.set i v := rfl

end Sys2Proof
end

