-- ==== Sys2Proof/Laws/Frame.lean ====
section
/-! SUPPORT. Byte sums, the checksum in modular form, slices, and the shape of a frame. -/

namespace Sys2Proof.Machine

@[simp] theorem byteSum_nil : byteSum [] = 0 := rfl

@[simp] theorem byteSum_cons (b : Byte) (B : List Byte) : byteSum (b :: B) = b.toNat + byteSum B := by
  simp [byteSum]

@[simp] theorem byteSum_append (A B : List Byte) : byteSum (A ++ B) = byteSum A + byteSum B := by
  simp [byteSum]

theorem byteSum8_toNat (B : List Byte) : (byteSum8 B).toNat = byteSum B % 256 := by
  simp [byteSum8]

@[simp] theorem byteSum8_nil : byteSum8 [] = 0 := rfl

theorem byteSum8_cons (b : Byte) (B : List Byte) : byteSum8 (b :: B) = b + byteSum8 B := by
  apply BitVec.eq_of_toNat_eq
  simp [byteSum8]

theorem byteSum8_append (A B : List Byte) : byteSum8 (A ++ B) = byteSum8 A + byteSum8 B := by
  apply BitVec.eq_of_toNat_eq
  simp [byteSum8]

/-- Adding one more byte to the accumulator (40_checksum_unit R105, 41_packet_encoder R125). -/
theorem byteSum8_concat (A : List Byte) (b : Byte) : byteSum8 (A ++ [b]) = byteSum8 A + b := by
  rw [byteSum8_append, byteSum8_cons, byteSum8_nil]
  simp

/-- The NOT of the unbounded sum and the NOT of the 8-bit sum agree in their low byte (40_checksum_unit R101). -/
theorem checksum_eq_not_sum8 (B : List Byte) : checksum B = ~~~byteSum8 B := by
  apply BitVec.eq_of_toNat_eq
  have hn : (~~~(byteSum B : Int)) = -(byteSum B : Int) - 1 := by
    change Int.not _ = _
    rw [show (byteSum B : Int) = Int.ofNat (byteSum B) from rfl, Int.not, Int.negSucc_eq]
    simp
    omega
  have h := byteSum8_toNat B
  simp only [checksum, hn, BitVec.toNat_ofInt, BitVec.toNat_not, h]
  omega

theorem slice_of_lt {B : List Byte} {i j : Nat} (h : j < i) : slice B i j = [] := by
  simp only [slice, List.drop_eq_nil_iff, List.length_take]
  omega

theorem length_slice {B : List Byte} {i j : Nat} (h : j < B.length) : (slice B i j).length = j + 1 - i := by
  simp only [slice, List.length_drop, List.length_take]
  omega

/-- A slice one byte longer. -/
theorem slice_succ {B : List Byte} {i j : Nat} (hi : i ≤ j + 1) (hj : j + 1 < B.length) :
    slice B i (j + 1) = slice B i j ++ [byteAt B (j + 1)] := by
  simp only [slice, byteAt, List.getD_eq_getElem?_getD, List.getElem?_eq_getElem hj, Option.getD_some]
  rw [List.take_succ_eq_append_getElem hj, List.drop_append_of_le_length]
  simp only [List.length_take]
  omega

@[simp] theorem length_frameBody (id cmd : Byte) (P : List Byte) : (frameBody id cmd P).length = P.length + 3 := by
  simp [frameBody]

@[simp] theorem length_frameOf (body : List Byte) : (frameOf body).length = body.length + 3 := by
  simp [frameOf]

/-- `build` answers a frame exactly for a valid parameter count and ID. -/
theorem build_eq_frame_iff {id cmd : Byte} {P F : List Byte} :
    build id cmd P = .frame F ↔ P.length ≤ 253 ∧ id.toNat ≤ 253 ∧ F = frameOf (frameBody id cmd P) := by
  unfold build Config.npMax Config.idMax
  split
  · simp
    omega
  · split
    · simp
      omega
    · simp only [Built.frame.injEq]
      constructor
      · intro h
        exact ⟨by omega, by omega, h.symm⟩
      · intro h
        exact h.2.2.symm

theorem byteAt_cons_succ (a : Byte) (l : List Byte) (i : Nat) : byteAt (a :: l) (i + 1) = byteAt l i := by
  simp [byteAt]

theorem byteAt_append_left {A B : List Byte} {i : Nat} (h : i < A.length) : byteAt (A ++ B) i = byteAt A i := by
  simp [byteAt, List.getElem?_append, h]

theorem byteAt_take {A : List Byte} {i k : Nat} (h : i < k) : byteAt (A.take k) i = byteAt A i := by
  simp [byteAt, h]

theorem byteAt_set {B : List Byte} {i j : Nat} {v : Byte} (h : i < B.length) :
    byteAt (B.set i v) j = if i = j then v else byteAt B j := by
  simp [byteAt, List.getElem?_set, h]
  split <;> simp

theorem byteAt_slice {L : List Byte} {i j k : Nat} (hk : k < j + 1 - i) :
    byteAt (slice L i j) k = byteAt L (i + k) := by
  simp [byteAt, slice, List.getElem?_drop, show i + k < j + 1 by omega]

/-- Slices agree where the lists do. -/
theorem slice_congr {A B : List Byte} {i j : Nat} (ha : j < A.length) (hb : j < B.length)
    (h : ∀ k, i ≤ k → k ≤ j → byteAt A k = byteAt B k) : slice A i j = slice B i j := by
  apply List.ext_getElem
  · rw [length_slice ha, length_slice hb]
  · intro k h1 h2
    rw [length_slice ha] at h1
    have e1 := byteAt_slice (L := A) (i := i) h1
    have e2 := byteAt_slice (L := B) (i := i) h1
    have := h (i + k) (by omega) (by omega)
    rw [← e1, ← e2] at this
    simp only [byteAt, List.getD_eq_getElem?_getD] at this
    rw [List.getElem?_eq_getElem (by rw [length_slice ha]; exact h1), List.getElem?_eq_getElem h2] at this
    simpa using this

/-- What the checksum covers, cut out of a frame (40_checksum_unit R100). -/
theorem slice_frameOf (id cmd : Byte) (P : List Byte) :
    slice (frameOf (frameBody id cmd P)) 2 (P.length + 4) = frameBody id cmd P := by
  simp only [slice, frameOf, List.append_assoc]
  rw [show P.length + 4 + 1 = ([Config.preamble, Config.preamble] ++ frameBody id cmd P).length by simp,
    ← List.append_assoc, List.take_left]
  rfl

/-- A frame, byte by byte (30_encoding R69). -/
theorem byteAt_frameOf (id cmd : Byte) (P : List Byte) :
    let F := frameOf (frameBody id cmd P)
    byteAt F 0 = 0xFF ∧ byteAt F 1 = 0xFF ∧ byteAt F 2 = id ∧ byteAt F 3 = BitVec.ofNat 8 (P.length + 2) ∧
    byteAt F 4 = cmd ∧ (∀ i, i < P.length → byteAt F (5 + i) = byteAt P i) ∧
    byteAt F (P.length + 5) = checksum (frameBody id cmd P) := by
  have hF : frameOf (frameBody id cmd P) =
      0xFF :: 0xFF :: id :: BitVec.ofNat 8 (P.length + 2) :: cmd :: (P ++ [checksum (frameBody id cmd P)]) := by
    simp [frameOf, frameBody, Config.preamble]
  simp only
  rw [hF]
  refine ⟨rfl, rfl, rfl, rfl, rfl, ?_, ?_⟩
  · intro i hi
    rw [show 5 + i = i + 1 + 1 + 1 + 1 + 1 by omega]
    simp only [byteAt_cons_succ]
    simp [byteAt, List.getElem?_append, hi]
  · simp [byteAt]

/-- A verdict with fields has been through every check of `parse` (42_packet_decoder R150). -/
theorem parse_fields {F : List Byte} {f : Fields} (h : parse F = .ok f ∨ parse F = .servoFault f) :
    6 ≤ F.length ∧ byteAt F 0 = 0xFF ∧ byteAt F 1 = 0xFF ∧ F.length = (byteAt F 3).toNat + 4 ∧
    byteAt F (F.length - 1) = checksum (slice F 2 (F.length - 2)) ∧ f = fieldsOf F ∧
    parse F = if byteAt F 4 ≠ 0 then .servoFault f else .ok f := by
  unfold parse Config.frameMin Config.preamble at *
  simp only at *
  split at h
  · simp at h
  split at h
  · simp at h
  split at h
  · simp at h
  split at h
  · simp at h
  rename_i a b c d
  simp only [not_or, ne_eq, not_not] at b c d
  rw [if_neg a, if_neg (by simp [b]), if_neg (by simpa using c), if_neg (by simp [d])]
  have hf : f = fieldsOf F := by split at h <;> simp at h <;> exact h.symm
  exact ⟨by omega, b.1, b.2, c, d, hf, by rw [hf]⟩

end Sys2Proof.Machine
end

