-- ==== Sys2Proof/Laws/Encoding.lean ====
section
/-! SUPPORT. The byte fields of a command word as numbers, and the little-endian helpers, byte by byte. -/

namespace Sys2Proof.Machine

/-- The opcode is the word's top four bits (30_encoding R60). -/
theorem opField_toNat (w : Word) : (opField w).toNat = w.toNat / 2 ^ 28 := by
  have := w.isLt
  simp [opField, BitVec.extractLsb'_toNat, Nat.shiftRight_eq_div_pow]
  omega

theorem field0_eq_ofNat (w : Word) : field0 w = BitVec.ofNat 8 w.toNat := by
  apply BitVec.eq_of_toNat_eq
  simp [field0]

theorem field1_eq_ofNat (w : Word) : field1 w = BitVec.ofNat 8 (w.toNat / 2 ^ 8) := by
  apply BitVec.eq_of_toNat_eq
  simp [field1, Nat.shiftRight_eq_div_pow]

theorem field2_eq_ofNat (w : Word) : field2 w = BitVec.ofNat 8 (w.toNat / 2 ^ 16) := by
  apply BitVec.eq_of_toNat_eq
  simp [field2, Nat.shiftRight_eq_div_pow]

@[simp] theorem opField_packWord (op : BitVec 4) (a b c : Byte) : opField (packWord op a b c) = op := by
  unfold opField packWord
  ext k hk
  simp
  interval_cases k <;> simp

@[simp] theorem field0_packWord (op : BitVec 4) (a b c : Byte) : field0 (packWord op a b c) = c := by
  unfold field0 packWord
  ext k hk
  simp
  interval_cases k <;> simp

@[simp] theorem field1_packWord (op : BitVec 4) (a b c : Byte) : field1 (packWord op a b c) = b := by
  unfold field1 packWord
  ext k hk
  simp
  interval_cases k <;> simp

@[simp] theorem field2_packWord (op : BitVec 4) (a b c : Byte) : field2 (packWord op a b c) = a := by
  unfold field2 packWord
  ext k hk
  simp
  interval_cases k <;> simp

/-- The check on an ID, as a bound (00_scope R4). -/
theorem validId_iff (id : Byte) : Instr.validId id = true ↔ id.toNat ≤ 253 := by
  unfold Instr.validId Config.idMax
  exact decide_eq_true_iff

@[simp] theorem leValue_nil : leValue [] = 0 := rfl

/-- The first byte is the least significant (43_wire_commands R185). -/
theorem leValue_cons (b : Byte) (bs : List Byte) : leValue (b :: bs) = b.toNat + 256 * leValue bs := by
  have scale : ∀ (l : List Byte) (c : Nat),
      (l.mapIdx fun k b => b.toNat * (c * 256 ^ k)).sum = c * (l.mapIdx fun k b => b.toNat * 256 ^ k).sum := by
    intro l
    induction l with
    | nil => simp
    | cons a l ih =>
      intro c
      simp only [List.mapIdx_cons, List.sum_cons, Nat.pow_zero, Nat.pow_succ]
      have h1 := ih (c * 256)
      have h2 := ih 256
      simp only [Nat.mul_comm _ 256, ← Nat.mul_assoc] at *
      rw [h1, h2]
      ring
  have h := scale bs 256
  unfold leValue
  simp only [List.mapIdx_cons, List.sum_cons, Nat.pow_zero, Nat.mul_one, Nat.pow_succ, Nat.mul_comm _ 256] at *
  rw [h]

/-- The bytes of a value that fits (43_wire_commands R184). -/
theorem leBytes_of_lt {value w : Nat} (h : value < 256 ^ w) :
    leBytes value w = some ((List.range w).map fun k => BitVec.ofNat 8 (value >>> (8 * k))) := by
  simp [leBytes, h]

/-- One more byte: the low byte first, then the bytes of the rest. -/
theorem map_range_succ_byte (w value : Nat) :
    (List.range (w + 1)).map (fun k => BitVec.ofNat 8 (value >>> (8 * k))) =
      BitVec.ofNat 8 value :: (List.range w).map (fun k => BitVec.ofNat 8 ((value / 256) >>> (8 * k))) := by
  rw [List.range_succ_eq_map]
  simp only [List.map_cons, List.map_map]
  congr 1
  apply List.map_congr_left
  intro k _
  simp only [Function.comp]
  rw [Nat.shiftRight_eq_div_pow, Nat.shiftRight_eq_div_pow, Nat.div_div_eq_div_mul,
    show 8 * (k + 1) = 8 + 8 * k from by ring, Nat.pow_add]

end Sys2Proof.Machine
end

