-- ==== Sys2Proof/Laws/State.lean ====
section
/-! SUPPORT. What each register update does to each field of State, one lemma per field per update. -/

namespace Sys2Proof.Machine

section
variable (s : State) (v : Byte)

@[simp] theorem State.setCuAcc_cuAcc : (s.setCuAcc v).cuAcc = v := rfl
@[simp] theorem State.setCuAcc_encBusy : (s.setCuAcc v).encBusy = s.encBusy := rfl
@[simp] theorem State.setCuAcc_encPos : (s.setCuAcc v).encPos = s.encPos := rfl
@[simp] theorem State.setCuAcc_encId : (s.setCuAcc v).encId = s.encId := rfl
@[simp] theorem State.setCuAcc_encCmd : (s.setCuAcc v).encCmd = s.encCmd := rfl
@[simp] theorem State.setCuAcc_encNp : (s.setCuAcc v).encNp = s.encNp := rfl
@[simp] theorem State.setCuAcc_encAcc : (s.setCuAcc v).encAcc = s.encAcc := rfl
@[simp] theorem State.setCuAcc_encStatus : (s.setCuAcc v).encStatus = s.encStatus := rfl
@[simp] theorem State.setCuAcc_pbufE : (s.setCuAcc v).pbufE = s.pbufE := rfl
@[simp] theorem State.setCuAcc_rxCnt : (s.setCuAcc v).rxCnt = s.rxCnt := rfl
@[simp] theorem State.setCuAcc_rxBuf : (s.setCuAcc v).rxBuf = s.rxBuf := rfl
@[simp] theorem State.setCuAcc_decStatus : (s.setCuAcc v).decStatus = s.decStatus := rfl
@[simp] theorem State.setCuAcc_decId : (s.setCuAcc v).decId = s.decId := rfl
@[simp] theorem State.setCuAcc_decLen : (s.setCuAcc v).decLen = s.decLen := rfl
@[simp] theorem State.setCuAcc_decErr : (s.setCuAcc v).decErr = s.decErr := rfl
@[simp] theorem State.setCuAcc_decNp : (s.setCuAcc v).decNp = s.decNp := rfl
@[simp] theorem State.setCuAcc_decChk : (s.setCuAcc v).decChk = s.decChk := rfl
@[simp] theorem State.setCuAcc_pbufD : (s.setCuAcc v).pbufD = s.pbufD := rfl
@[simp] theorem State.setCuAcc_host : (s.setCuAcc v).host = s.host := rfl
@[simp] theorem State.setCuAcc_taken : (s.setCuAcc v).taken = s.taken := rfl

end

section
variable (s : State) (i : Nat) (v : Byte)

@[simp] theorem State.setPbufE_cuAcc : (s.setPbufE i v).cuAcc = s.cuAcc := rfl
@[simp] theorem State.setPbufE_encBusy : (s.setPbufE i v).encBusy = s.encBusy := rfl
@[simp] theorem State.setPbufE_encPos : (s.setPbufE i v).encPos = s.encPos := rfl
@[simp] theorem State.setPbufE_encId : (s.setPbufE i v).encId = s.encId := rfl
@[simp] theorem State.setPbufE_encCmd : (s.setPbufE i v).encCmd = s.encCmd := rfl
@[simp] theorem State.setPbufE_encNp : (s.setPbufE i v).encNp = s.encNp := rfl
@[simp] theorem State.setPbufE_encAcc : (s.setPbufE i v).encAcc = s.encAcc := rfl
@[simp] theorem State.setPbufE_encStatus : (s.setPbufE i v).encStatus = s.encStatus := rfl
@[simp] theorem State.setPbufE_pbufE : (s.setPbufE i v).pbufE = s.pbufE.set i v := rfl
@[simp] theorem State.setPbufE_rxCnt : (s.setPbufE i v).rxCnt = s.rxCnt := rfl
@[simp] theorem State.setPbufE_rxBuf : (s.setPbufE i v).rxBuf = s.rxBuf := rfl
@[simp] theorem State.setPbufE_decStatus : (s.setPbufE i v).decStatus = s.decStatus := rfl
@[simp] theorem State.setPbufE_decId : (s.setPbufE i v).decId = s.decId := rfl
@[simp] theorem State.setPbufE_decLen : (s.setPbufE i v).decLen = s.decLen := rfl
@[simp] theorem State.setPbufE_decErr : (s.setPbufE i v).decErr = s.decErr := rfl
@[simp] theorem State.setPbufE_decNp : (s.setPbufE i v).decNp = s.decNp := rfl
@[simp] theorem State.setPbufE_decChk : (s.setPbufE i v).decChk = s.decChk := rfl
@[simp] theorem State.setPbufE_pbufD : (s.setPbufE i v).pbufD = s.pbufD := rfl
@[simp] theorem State.setPbufE_host : (s.setPbufE i v).host = s.host := rfl
@[simp] theorem State.setPbufE_taken : (s.setPbufE i v).taken = s.taken := rfl

end

section
variable (s : State) (c : EncStatus)

@[simp] theorem State.setEncStatus_cuAcc : (s.setEncStatus c).cuAcc = s.cuAcc := rfl
@[simp] theorem State.setEncStatus_encBusy : (s.setEncStatus c).encBusy = s.encBusy := rfl
@[simp] theorem State.setEncStatus_encPos : (s.setEncStatus c).encPos = s.encPos := rfl
@[simp] theorem State.setEncStatus_encId : (s.setEncStatus c).encId = s.encId := rfl
@[simp] theorem State.setEncStatus_encCmd : (s.setEncStatus c).encCmd = s.encCmd := rfl
@[simp] theorem State.setEncStatus_encNp : (s.setEncStatus c).encNp = s.encNp := rfl
@[simp] theorem State.setEncStatus_encAcc : (s.setEncStatus c).encAcc = s.encAcc := rfl
@[simp] theorem State.setEncStatus_encStatus : (s.setEncStatus c).encStatus = c := rfl
@[simp] theorem State.setEncStatus_pbufE : (s.setEncStatus c).pbufE = s.pbufE := rfl
@[simp] theorem State.setEncStatus_rxCnt : (s.setEncStatus c).rxCnt = s.rxCnt := rfl
@[simp] theorem State.setEncStatus_rxBuf : (s.setEncStatus c).rxBuf = s.rxBuf := rfl
@[simp] theorem State.setEncStatus_decStatus : (s.setEncStatus c).decStatus = s.decStatus := rfl
@[simp] theorem State.setEncStatus_decId : (s.setEncStatus c).decId = s.decId := rfl
@[simp] theorem State.setEncStatus_decLen : (s.setEncStatus c).decLen = s.decLen := rfl
@[simp] theorem State.setEncStatus_decErr : (s.setEncStatus c).decErr = s.decErr := rfl
@[simp] theorem State.setEncStatus_decNp : (s.setEncStatus c).decNp = s.decNp := rfl
@[simp] theorem State.setEncStatus_decChk : (s.setEncStatus c).decChk = s.decChk := rfl
@[simp] theorem State.setEncStatus_pbufD : (s.setEncStatus c).pbufD = s.pbufD := rfl
@[simp] theorem State.setEncStatus_host : (s.setEncStatus c).host = s.host := rfl
@[simp] theorem State.setEncStatus_taken : (s.setEncStatus c).taken = s.taken := rfl

end

section
variable (s : State) (id cmd np : Byte)

@[simp] theorem State.latchFrame_cuAcc : (s.latchFrame id cmd np).cuAcc = s.cuAcc := rfl
@[simp] theorem State.latchFrame_encBusy : (s.latchFrame id cmd np).encBusy = true := rfl
@[simp] theorem State.latchFrame_encPos : (s.latchFrame id cmd np).encPos = 0 := rfl
@[simp] theorem State.latchFrame_encId : (s.latchFrame id cmd np).encId = id := rfl
@[simp] theorem State.latchFrame_encCmd : (s.latchFrame id cmd np).encCmd = cmd := rfl
@[simp] theorem State.latchFrame_encNp : (s.latchFrame id cmd np).encNp = np := rfl
@[simp] theorem State.latchFrame_encAcc : (s.latchFrame id cmd np).encAcc = 0 := rfl
@[simp] theorem State.latchFrame_encStatus : (s.latchFrame id cmd np).encStatus = s.encStatus := rfl
@[simp] theorem State.latchFrame_pbufE : (s.latchFrame id cmd np).pbufE = s.pbufE := rfl
@[simp] theorem State.latchFrame_rxCnt : (s.latchFrame id cmd np).rxCnt = s.rxCnt := rfl
@[simp] theorem State.latchFrame_rxBuf : (s.latchFrame id cmd np).rxBuf = s.rxBuf := rfl
@[simp] theorem State.latchFrame_decStatus : (s.latchFrame id cmd np).decStatus = s.decStatus := rfl
@[simp] theorem State.latchFrame_decId : (s.latchFrame id cmd np).decId = s.decId := rfl
@[simp] theorem State.latchFrame_decLen : (s.latchFrame id cmd np).decLen = s.decLen := rfl
@[simp] theorem State.latchFrame_decErr : (s.latchFrame id cmd np).decErr = s.decErr := rfl
@[simp] theorem State.latchFrame_decNp : (s.latchFrame id cmd np).decNp = s.decNp := rfl
@[simp] theorem State.latchFrame_decChk : (s.latchFrame id cmd np).decChk = s.decChk := rfl
@[simp] theorem State.latchFrame_pbufD : (s.latchFrame id cmd np).pbufD = s.pbufD := rfl
@[simp] theorem State.latchFrame_host : (s.latchFrame id cmd np).host = s.host := rfl
@[simp] theorem State.latchFrame_taken : (s.latchFrame id cmd np).taken = s.taken := rfl

end

section
variable (s : State) (i : Nat) (v : Byte)

@[simp] theorem State.setRxBuf_cuAcc : (s.setRxBuf i v).cuAcc = s.cuAcc := rfl
@[simp] theorem State.setRxBuf_encBusy : (s.setRxBuf i v).encBusy = s.encBusy := rfl
@[simp] theorem State.setRxBuf_encPos : (s.setRxBuf i v).encPos = s.encPos := rfl
@[simp] theorem State.setRxBuf_encId : (s.setRxBuf i v).encId = s.encId := rfl
@[simp] theorem State.setRxBuf_encCmd : (s.setRxBuf i v).encCmd = s.encCmd := rfl
@[simp] theorem State.setRxBuf_encNp : (s.setRxBuf i v).encNp = s.encNp := rfl
@[simp] theorem State.setRxBuf_encAcc : (s.setRxBuf i v).encAcc = s.encAcc := rfl
@[simp] theorem State.setRxBuf_encStatus : (s.setRxBuf i v).encStatus = s.encStatus := rfl
@[simp] theorem State.setRxBuf_pbufE : (s.setRxBuf i v).pbufE = s.pbufE := rfl
@[simp] theorem State.setRxBuf_rxCnt : (s.setRxBuf i v).rxCnt = s.rxCnt := rfl
@[simp] theorem State.setRxBuf_rxBuf : (s.setRxBuf i v).rxBuf = s.rxBuf.set i v := rfl
@[simp] theorem State.setRxBuf_decStatus : (s.setRxBuf i v).decStatus = s.decStatus := rfl
@[simp] theorem State.setRxBuf_decId : (s.setRxBuf i v).decId = s.decId := rfl
@[simp] theorem State.setRxBuf_decLen : (s.setRxBuf i v).decLen = s.decLen := rfl
@[simp] theorem State.setRxBuf_decErr : (s.setRxBuf i v).decErr = s.decErr := rfl
@[simp] theorem State.setRxBuf_decNp : (s.setRxBuf i v).decNp = s.decNp := rfl
@[simp] theorem State.setRxBuf_decChk : (s.setRxBuf i v).decChk = s.decChk := rfl
@[simp] theorem State.setRxBuf_pbufD : (s.setRxBuf i v).pbufD = s.pbufD := rfl
@[simp] theorem State.setRxBuf_host : (s.setRxBuf i v).host = s.host := rfl
@[simp] theorem State.setRxBuf_taken : (s.setRxBuf i v).taken = s.taken := rfl

end

section
variable (s : State) (n : Count)

@[simp] theorem State.setRxCnt_cuAcc : (s.setRxCnt n).cuAcc = s.cuAcc := rfl
@[simp] theorem State.setRxCnt_encBusy : (s.setRxCnt n).encBusy = s.encBusy := rfl
@[simp] theorem State.setRxCnt_encPos : (s.setRxCnt n).encPos = s.encPos := rfl
@[simp] theorem State.setRxCnt_encId : (s.setRxCnt n).encId = s.encId := rfl
@[simp] theorem State.setRxCnt_encCmd : (s.setRxCnt n).encCmd = s.encCmd := rfl
@[simp] theorem State.setRxCnt_encNp : (s.setRxCnt n).encNp = s.encNp := rfl
@[simp] theorem State.setRxCnt_encAcc : (s.setRxCnt n).encAcc = s.encAcc := rfl
@[simp] theorem State.setRxCnt_encStatus : (s.setRxCnt n).encStatus = s.encStatus := rfl
@[simp] theorem State.setRxCnt_pbufE : (s.setRxCnt n).pbufE = s.pbufE := rfl
@[simp] theorem State.setRxCnt_rxCnt : (s.setRxCnt n).rxCnt = n := rfl
@[simp] theorem State.setRxCnt_rxBuf : (s.setRxCnt n).rxBuf = s.rxBuf := rfl
@[simp] theorem State.setRxCnt_decStatus : (s.setRxCnt n).decStatus = s.decStatus := rfl
@[simp] theorem State.setRxCnt_decId : (s.setRxCnt n).decId = s.decId := rfl
@[simp] theorem State.setRxCnt_decLen : (s.setRxCnt n).decLen = s.decLen := rfl
@[simp] theorem State.setRxCnt_decErr : (s.setRxCnt n).decErr = s.decErr := rfl
@[simp] theorem State.setRxCnt_decNp : (s.setRxCnt n).decNp = s.decNp := rfl
@[simp] theorem State.setRxCnt_decChk : (s.setRxCnt n).decChk = s.decChk := rfl
@[simp] theorem State.setRxCnt_pbufD : (s.setRxCnt n).pbufD = s.pbufD := rfl
@[simp] theorem State.setRxCnt_host : (s.setRxCnt n).host = s.host := rfl
@[simp] theorem State.setRxCnt_taken : (s.setRxCnt n).taken = s.taken := rfl

end

section
variable (s : State) (r : DecResult)

@[simp] theorem State.setResult_cuAcc : (s.setResult r).cuAcc = s.cuAcc := rfl
@[simp] theorem State.setResult_encBusy : (s.setResult r).encBusy = s.encBusy := rfl
@[simp] theorem State.setResult_encPos : (s.setResult r).encPos = s.encPos := rfl
@[simp] theorem State.setResult_encId : (s.setResult r).encId = s.encId := rfl
@[simp] theorem State.setResult_encCmd : (s.setResult r).encCmd = s.encCmd := rfl
@[simp] theorem State.setResult_encNp : (s.setResult r).encNp = s.encNp := rfl
@[simp] theorem State.setResult_encAcc : (s.setResult r).encAcc = s.encAcc := rfl
@[simp] theorem State.setResult_encStatus : (s.setResult r).encStatus = s.encStatus := rfl
@[simp] theorem State.setResult_pbufE : (s.setResult r).pbufE = s.pbufE := rfl
@[simp] theorem State.setResult_rxCnt : (s.setResult r).rxCnt = s.rxCnt := rfl
@[simp] theorem State.setResult_rxBuf : (s.setResult r).rxBuf = s.rxBuf := rfl
@[simp] theorem State.setResult_decStatus : (s.setResult r).decStatus = r.status := rfl
@[simp] theorem State.setResult_decId : (s.setResult r).decId = r.id := rfl
@[simp] theorem State.setResult_decLen : (s.setResult r).decLen = r.len := rfl
@[simp] theorem State.setResult_decErr : (s.setResult r).decErr = r.err := rfl
@[simp] theorem State.setResult_decNp : (s.setResult r).decNp = r.np := rfl
@[simp] theorem State.setResult_decChk : (s.setResult r).decChk = r.chk := rfl
@[simp] theorem State.setResult_pbufD : (s.setResult r).pbufD = r.params := rfl
@[simp] theorem State.setResult_host : (s.setResult r).host = s.host := rfl
@[simp] theorem State.setResult_taken : (s.setResult r).taken = s.taken := rfl

end

section
variable (s : State) (acts : List HostAct)

@[simp] theorem State.setHost_cuAcc : (s.setHost acts).cuAcc = s.cuAcc := rfl
@[simp] theorem State.setHost_encBusy : (s.setHost acts).encBusy = s.encBusy := rfl
@[simp] theorem State.setHost_encPos : (s.setHost acts).encPos = s.encPos := rfl
@[simp] theorem State.setHost_encId : (s.setHost acts).encId = s.encId := rfl
@[simp] theorem State.setHost_encCmd : (s.setHost acts).encCmd = s.encCmd := rfl
@[simp] theorem State.setHost_encNp : (s.setHost acts).encNp = s.encNp := rfl
@[simp] theorem State.setHost_encAcc : (s.setHost acts).encAcc = s.encAcc := rfl
@[simp] theorem State.setHost_encStatus : (s.setHost acts).encStatus = s.encStatus := rfl
@[simp] theorem State.setHost_pbufE : (s.setHost acts).pbufE = s.pbufE := rfl
@[simp] theorem State.setHost_rxCnt : (s.setHost acts).rxCnt = s.rxCnt := rfl
@[simp] theorem State.setHost_rxBuf : (s.setHost acts).rxBuf = s.rxBuf := rfl
@[simp] theorem State.setHost_decStatus : (s.setHost acts).decStatus = s.decStatus := rfl
@[simp] theorem State.setHost_decId : (s.setHost acts).decId = s.decId := rfl
@[simp] theorem State.setHost_decLen : (s.setHost acts).decLen = s.decLen := rfl
@[simp] theorem State.setHost_decErr : (s.setHost acts).decErr = s.decErr := rfl
@[simp] theorem State.setHost_decNp : (s.setHost acts).decNp = s.decNp := rfl
@[simp] theorem State.setHost_decChk : (s.setHost acts).decChk = s.decChk := rfl
@[simp] theorem State.setHost_pbufD : (s.setHost acts).pbufD = s.pbufD := rfl
@[simp] theorem State.setHost_host : (s.setHost acts).host = acts := rfl
@[simp] theorem State.setHost_taken : (s.setHost acts).taken = s.taken := rfl

end

section
variable (s : State) (ws : List Word)

@[simp] theorem State.queueLines_cuAcc : (s.queueLines ws).cuAcc = s.cuAcc := rfl
@[simp] theorem State.queueLines_encBusy : (s.queueLines ws).encBusy = s.encBusy := rfl
@[simp] theorem State.queueLines_encPos : (s.queueLines ws).encPos = s.encPos := rfl
@[simp] theorem State.queueLines_encId : (s.queueLines ws).encId = s.encId := rfl
@[simp] theorem State.queueLines_encCmd : (s.queueLines ws).encCmd = s.encCmd := rfl
@[simp] theorem State.queueLines_encNp : (s.queueLines ws).encNp = s.encNp := rfl
@[simp] theorem State.queueLines_encAcc : (s.queueLines ws).encAcc = s.encAcc := rfl
@[simp] theorem State.queueLines_encStatus : (s.queueLines ws).encStatus = s.encStatus := rfl
@[simp] theorem State.queueLines_pbufE : (s.queueLines ws).pbufE = s.pbufE := rfl
@[simp] theorem State.queueLines_rxCnt : (s.queueLines ws).rxCnt = s.rxCnt := rfl
@[simp] theorem State.queueLines_rxBuf : (s.queueLines ws).rxBuf = s.rxBuf := rfl
@[simp] theorem State.queueLines_decStatus : (s.queueLines ws).decStatus = s.decStatus := rfl
@[simp] theorem State.queueLines_decId : (s.queueLines ws).decId = s.decId := rfl
@[simp] theorem State.queueLines_decLen : (s.queueLines ws).decLen = s.decLen := rfl
@[simp] theorem State.queueLines_decErr : (s.queueLines ws).decErr = s.decErr := rfl
@[simp] theorem State.queueLines_decNp : (s.queueLines ws).decNp = s.decNp := rfl
@[simp] theorem State.queueLines_decChk : (s.queueLines ws).decChk = s.decChk := rfl
@[simp] theorem State.queueLines_pbufD : (s.queueLines ws).pbufD = s.pbufD := rfl
@[simp] theorem State.queueLines_host : (s.queueLines ws).host =
    ws.map (fun w => .present (.word w) false) ++ s.host := rfl
@[simp] theorem State.queueLines_taken : (s.queueLines ws).taken = s.taken := rfl

end

section
variable (s : State)

@[simp] theorem State.resetRegs_cuAcc : (s.resetRegs).cuAcc = State.reset.cuAcc := rfl
@[simp] theorem State.resetRegs_encBusy : (s.resetRegs).encBusy = State.reset.encBusy := rfl
@[simp] theorem State.resetRegs_encPos : (s.resetRegs).encPos = State.reset.encPos := rfl
@[simp] theorem State.resetRegs_encId : (s.resetRegs).encId = State.reset.encId := rfl
@[simp] theorem State.resetRegs_encCmd : (s.resetRegs).encCmd = State.reset.encCmd := rfl
@[simp] theorem State.resetRegs_encNp : (s.resetRegs).encNp = State.reset.encNp := rfl
@[simp] theorem State.resetRegs_encAcc : (s.resetRegs).encAcc = State.reset.encAcc := rfl
@[simp] theorem State.resetRegs_encStatus : (s.resetRegs).encStatus = State.reset.encStatus := rfl
@[simp] theorem State.resetRegs_pbufE : (s.resetRegs).pbufE = State.reset.pbufE := rfl
@[simp] theorem State.resetRegs_rxCnt : (s.resetRegs).rxCnt = State.reset.rxCnt := rfl
@[simp] theorem State.resetRegs_rxBuf : (s.resetRegs).rxBuf = State.reset.rxBuf := rfl
@[simp] theorem State.resetRegs_decStatus : (s.resetRegs).decStatus = State.reset.decStatus := rfl
@[simp] theorem State.resetRegs_decId : (s.resetRegs).decId = State.reset.decId := rfl
@[simp] theorem State.resetRegs_decLen : (s.resetRegs).decLen = State.reset.decLen := rfl
@[simp] theorem State.resetRegs_decErr : (s.resetRegs).decErr = State.reset.decErr := rfl
@[simp] theorem State.resetRegs_decNp : (s.resetRegs).decNp = State.reset.decNp := rfl
@[simp] theorem State.resetRegs_decChk : (s.resetRegs).decChk = State.reset.decChk := rfl
@[simp] theorem State.resetRegs_pbufD : (s.resetRegs).pbufD = State.reset.pbufD := rfl
@[simp] theorem State.resetRegs_host : (s.resetRegs).host = s.host := rfl
@[simp] theorem State.resetRegs_taken : (s.resetRegs).taken = s.taken := rfl

end

end Sys2Proof.Machine
end

