-- ==== Sys2Proof/Laws/Ops.lean ====
section
/-! SUPPORT. One lemma per shared operation: everything it can do. -/

namespace Sys2Proof.Machine

/-- An accepted `ENC_START` ends in one of three ways (41_packet_encoder R124). -/
theorem startFrame_cases (s : State) (id cmd np : Byte) :
    (253 < np.toNat ∧ startFrame s id cmd np = s.setEncStatus .errNParams) ∨
    (np.toNat ≤ 253 ∧ 253 < id.toNat ∧ startFrame s id cmd np = s.setEncStatus .errId) ∨
    (np.toNat ≤ 253 ∧ id.toNat ≤ 253 ∧
      startFrame s id cmd np = (s.latchFrame id cmd np).setEncStatus .accepted) := by
  unfold startFrame startStatus Config.npMax Config.idMax
  by_cases h1 : np.toNat > 253
  · left
    simp [h1]
  · by_cases h2 : id.toNat > 253
    · right; left
      simp [h1, h2]
      omega
    · right; right
      simp [h1, h2]
      omega

/-- A start leaves the host's script as it is. -/
theorem startFrame_setHost (s : State) (acts : List HostAct) (id cmd np : Byte) :
    startFrame (s.setHost acts) id cmd np = (startFrame s id cmd np).setHost acts := by
  unfold startFrame
  split <;> rfl

/-- The step that begins an `enc.frame` is refused, held, or executes the first line: the start where there is no
parameter, else the first load, with the other lines left to the host (30_encoding R74, 10_state R11, R28). -/
theorem encFrame_cases (id cmd : Byte) (P : List Byte) (s : State) :
    (255 < P.length ∧ encFrame id cmd P s = .refused .operandNotEncodable) ∨
    (P.length ≤ 255 ∧ s.encBusy = true ∧ encFrame id cmd P s = .next s) ∨
    (P = [] ∧ s.encBusy = false ∧ encFrame id cmd P s = .next (startFrame s id cmd 0)) ∨
    (∃ p P', P = p :: P' ∧ P.length ≤ 255 ∧ s.encBusy = false ∧
      encFrame id cmd P s =
        .next ((s.setPbufE 0 p).queueLines (frameWords id cmd (BitVec.ofNat 8 P.length) 1 P'))) := by
  unfold encFrame
  by_cases h1 : P.length > 255
  · exact Or.inl ⟨h1, if_pos h1⟩
  · rw [if_neg h1]
    cases h2 : s.encBusy
    · cases P with
      | nil => exact Or.inr (Or.inr (Or.inl ⟨rfl, rfl, rfl⟩))
      | cons p P' => exact Or.inr (Or.inr (Or.inr ⟨p, P', rfl, by omega, rfl, rfl⟩))
    · exact Or.inr (Or.inl ⟨by omega, rfl, rfl⟩)

/-- What a received byte does (42_packet_decoder R152). -/
theorem receiveByte_cases (s : State) (b : Byte) :
    (s.rxCnt.toNat < 259 ∧ receiveByte s b = (s.setRxBuf s.rxCnt.toNat b).setRxCnt (s.rxCnt + 1)) ∨
    (s.rxCnt.toNat = 259 ∧ receiveByte s b = s.setRxCnt 260) ∨
    (260 ≤ s.rxCnt.toNat ∧ receiveByte s b = s) := by
  unfold receiveByte Config.rxBufSize Config.rxOverflow
  by_cases h1 : s.rxCnt.toNat < 259
  · left
    exact ⟨h1, if_pos h1⟩
  · rw [if_neg h1]
    by_cases h2 : s.rxCnt.toNat = 259
    · right; left
      exact ⟨h2, if_pos h2⟩
    · right; right
      exact ⟨by omega, if_neg h2⟩

/-- A verdict that leaves fields has been through every check (42_packet_decoder R154). -/
theorem verdictHw_hasFields {s : State} (h : (verdictHw s).hasFields = true) :
    6 ≤ s.rxCnt.toNat ∧ s.rxBuf.get 0 = 0xFF ∧ s.rxBuf.get 1 = 0xFF ∧
    s.rxCnt.toNat = (s.rxBuf.get 3).toNat + 4 ∧
    s.rxBuf.get (s.rxCnt.toNat - 1) = checksum (slice s.rxBuf.data 2 (s.rxCnt.toNat - 2)) ∧
    verdictHw s = if s.rxBuf.get 4 ≠ 0 then .servoFault else .ok := by
  unfold verdictHw Config.frameMin Config.preamble at h ⊢
  simp only at h ⊢
  by_cases h1 : s.rxCnt.toNat < 6
  · simp [h1, DecStatus.hasFields] at h
  by_cases h2 : s.rxBuf.get 0 ≠ 0xFF ∨ s.rxBuf.get 1 ≠ 0xFF
  · rw [if_neg h1, if_pos h2] at h
    simp [DecStatus.hasFields] at h
  by_cases h3 : s.rxCnt.toNat ≠ (s.rxBuf.get 3).toNat + 4
  · rw [if_neg h1, if_neg h2, if_pos h3] at h
    simp [DecStatus.hasFields] at h
  by_cases h4 : s.rxBuf.get (s.rxCnt.toNat - 1) ≠ checksum (slice s.rxBuf.data 2 (s.rxCnt.toNat - 2))
  · rw [if_neg h1, if_neg h2, if_neg h3, if_pos h4] at h
    simp [DecStatus.hasFields] at h
  rw [if_neg h1, if_neg h2, if_neg h3, if_neg h4]
  simp only [not_or, ne_eq, not_not] at h2 h3 h4
  exact ⟨by omega, h2.1, h2.2, h3, h4, rfl⟩

/-- The result write of a verdict that leaves no field (42_packet_decoder R155). -/
theorem decResult_discarded {s : State} (h : (verdictHw s).hasFields = false) :
    decResult s = DecResult.discarded (verdictHw s) := by
  simp [decResult, h]

/-- The emission part of a step changes four fields, or nothing (41_packet_encoder R125, R126). -/
theorem emission_cases (pre post : State) (r : Bool) :
    (¬(pre.encBusy = true ∧ r = true) ∧ emission pre r post = post) ∨
    (pre.encBusy = true ∧ r = true ∧
      emission pre r post =
        { post with
          encAcc :=
            if 2 ≤ pre.encPos.toNat ∧ pre.encPos.toNat ≤ pre.encNp.toNat + 4 then pre.encAcc + frameByte pre
            else post.encAcc
          encBusy := if atLastByte pre then false else post.encBusy
          encPos := if atLastByte pre then 0 else pre.encPos + 1
          taken := post.taken ++ [⟨frameByte pre, atLastByte pre⟩] }) := by
  unfold emission
  cases hb : pre.encBusy <;> cases r <;> simp

/-- What an instruction can do, by the part of the state it writes (10_state R33, R34): nothing, `CU_ACC`, one
entry of `PBUF_E`, a start, a received byte, a result, or the first load of an `enc.frame`. -/
theorem exec_cases {i : Instr} {s t : State} (h : exec i s = .next t) :
    t = s ∨ (∃ v, t = s.setCuAcc v) ∨ (s.encBusy = false ∧ ∃ (k v : Byte), t = s.setPbufE k.toNat v) ∨
    (s.encBusy = false ∧ ∃ id cmd np, t = startFrame s id cmd np) ∨
    (∃ b, i = .decByte b ∧ t = receiveByte s b) ∨
    (i = .decEnd ∧ t = (s.setResult (decResult s)).setRxCnt 0) ∨
    (s.encBusy = false ∧ ∃ p ws, t = (s.setPbufE 0 p).queueLines ws) := by
  have wire : ∀ {id cmd : Byte} {P : List Byte}, encFrame id cmd P s = .next t →
      t = s ∨ (∃ v, t = s.setCuAcc v) ∨ (s.encBusy = false ∧ ∃ (k v : Byte), t = s.setPbufE k.toNat v) ∨
      (s.encBusy = false ∧ ∃ id cmd np, t = startFrame s id cmd np) ∨
      (∃ b, i = .decByte b ∧ t = receiveByte s b) ∨
      (i = .decEnd ∧ t = (s.setResult (decResult s)).setRxCnt 0) ∨
      (s.encBusy = false ∧ ∃ p ws, t = (s.setPbufE 0 p).queueLines ws) := by
    intro id cmd P h
    rcases encFrame_cases id cmd P s with ⟨_, e⟩ | ⟨_, _, e⟩ | ⟨_, hb, e⟩ | ⟨p, P', _, _, hb, e⟩ <;>
      rw [e] at h <;> cases h
    · exact Or.inl rfl
    · exact Or.inr (Or.inr (Or.inr (Or.inl ⟨hb, id, cmd, 0, rfl⟩)))
    · exact Or.inr (Or.inr (Or.inr (Or.inr (Or.inr (Or.inr ⟨hb, p, _, rfl⟩)))))
  cases i with
  | nop => cases h; exact Or.inl rfl
  | cuClr => cases h; exact Or.inr (Or.inl ⟨_, rfl⟩)
  | cuAdd b => cases h; exact Or.inr (Or.inl ⟨_, rfl⟩)
  | encLoad k v =>
    simp only [exec, execEncLoad] at h
    cases hb : s.encBusy <;> simp only [hb] at h <;> cases h
    · exact Or.inr (Or.inr (Or.inl ⟨rfl, k, v, rfl⟩))
    · exact Or.inl rfl
  | encStart id cmd np =>
    simp only [exec, execEncStart] at h
    cases hb : s.encBusy <;> simp only [hb] at h <;> cases h
    · exact Or.inr (Or.inr (Or.inr (Or.inl ⟨rfl, id, cmd, np, rfl⟩)))
    · exact Or.inl rfl
  | decByte b =>
    cases h
    exact Or.inr (Or.inr (Or.inr (Or.inr (Or.inl ⟨b, rfl, rfl⟩))))
  | decEnd =>
    cases h
    exact Or.inr (Or.inr (Or.inr (Or.inr (Or.inr (Or.inl ⟨rfl, rfl⟩)))))
  | framePing id =>
    exact wire (id := id) (cmd := 1) (P := []) h
  | frameRead id a w =>
    exact wire (id := id) (cmd := 2) (P := [a, w]) h
  | frameWrite id a w v =>
    simp only [exec, execFrameWrite] at h
    split at h
    · exact wire h
    · cases h

/-- What a host presents runs the instruction it decodes to, or frames a request that is no wire command. -/
theorem runCommand_cases {c : Command} {s t : State} (h : runCommand s c = .next t) :
    (∃ i, decodeCommand c = .instr i ∧ exec i s = .next t) ∨
    (∃ r e, c = .request r ∧ decodeRequest r = .reject e ∧ encFrame r.id r.cmd r.params s = .next t) := by
  cases c with
  | word w =>
    simp only [runCommand] at h
    split at h
    · next i e => exact Or.inl ⟨i, e, h⟩
    · cases h
  | request r =>
    simp only [runCommand] at h
    split at h
    · next i e => exact Or.inl ⟨i, e, h⟩
    · next e' e => exact Or.inr ⟨r, e', rfl, e, h⟩

/-- A step is a reset, an emission alone, or a command's step and the emission part on top of it (10_state R32,
R33). -/
theorem clock_cases {inp : StepInput} {s t : State} (h : clock inp s = .next t) :
    (inp.rst = true ∧ t = s.resetRegs) ∨
    (inp.rst = false ∧ inp.cmd = none ∧ t = emission s inp.outReady s) ∨
    (inp.rst = false ∧ ∃ c u, inp.cmd = some c ∧ runCommand s c = .next u ∧ t = emission s inp.outReady u) := by
  unfold clock normalStep at h
  cases hr : inp.rst with
  | true =>
    rw [hr] at h
    cases h
    exact Or.inl ⟨rfl, rfl⟩
  | false =>
    rw [hr] at h
    cases hc : inp.cmd with
    | none =>
      rw [hc] at h
      cases h
      exact Or.inr (Or.inl ⟨rfl, rfl, rfl⟩)
    | some c =>
      rw [hc] at h
      simp only [Bool.false_eq_true, if_false] at h
      cases hu : runCommand s c with
      | next u =>
        rw [hu] at h
        cases h
        exact Or.inr (Or.inr ⟨rfl, c, u, rfl, hu, rfl⟩)
      | fault r =>
        rw [hu] at h
        cases h
      | refused r =>
        rw [hu] at h
        cases h

/-- A step whose script begins with something presented presents it, and the script moves on if it is accepted
(30_encoding R73). -/
theorem step_present {s : State} {c : Command} {r : Bool} {rest : List HostAct} (h : s.host = .present c r :: rest) :
    step s = clock { rst := false, cmd := some c, outReady := r }
      (s.setHost (if cmdReady s c then rest else s.host)) := by
  simp only [step, nextInput, remaining, pending, h, skipDrains, HostAct.input, actDone]
  rfl

/-- While the encoder is idle a normal step emits nothing, whatever `out_ready` is (41_packet_encoder R125). -/
theorem clock_idle {s : State} {c : Option Command} {r : Bool} (hb : s.encBusy = false) :
    clock { rst := false, cmd := c, outReady := r } s =
      match c with
      | none => .next s
      | some c => runCommand s c := by
  have em : ∀ u, emission s r u = u := fun u => by simp [emission, hb]
  have we : ∀ o, withEmission s r o = o := fun o => by cases o <;> simp [withEmission, em]
  simp only [clock, normalStep, we]
  rfl

end Sys2Proof.Machine
end

