-- ==== Sys2Proof/Laws/PerInstr.lean ====
section
/-! SUPPORT. One fact per instruction about its row of spec/opcode_table.json. -/

namespace Sys2Proof.Laws.OpcodeRow

/-- The code of an instruction's row: the opcode of a command word (30_encoding R65), or the command code of a request
frame (30_encoding R71). -/
inductive Code where
  | opcode (op : BitVec 4)
  | command (code : Byte)
  deriving DecidableEq, Repr

/-- The row of each instruction. -/
def code : Instr → Code
  | .nop => .opcode 0x0
  | .cuClr => .opcode 0x1
  | .cuAdd _ => .opcode 0x2
  | .encLoad _ _ => .opcode 0x3
  | .encStart _ _ _ => .opcode 0x4
  | .decByte _ => .opcode 0x5
  | .decEnd => .opcode 0x6
  | .framePing _ => .command 0x01
  | .frameRead _ _ _ => .command 0x02
  | .frameWrite _ _ _ _ => .command 0x03

/-- An instruction of the command port has a word with its row's opcode and decodes from it; a wire command has no
word, and the request it has carries its row's command code. -/
def Statement (i : Instr) : Prop :=
  match code i with
  | .opcode op =>
    ∃ w, encodeWord i = some w ∧ Machine.opField w = op ∧ decodeWord w = .instr i ∧ requestOf i = none
  | .command c => encodeWord i = none ∧ ∀ r, requestOf i = some r → r.cmd = c

open Sys2Proof.Machine

theorem nop : Statement .nop := ⟨_, rfl, rfl, rfl, rfl⟩

theorem cuClr : Statement .cuClr := ⟨_, rfl, rfl, rfl, rfl⟩

theorem cuAdd (byte : Byte) : Statement (.cuAdd byte) :=
  ⟨packWord 2 0 0 byte, rfl, by simp, by simp [decodeWord], rfl⟩

theorem encLoad (idx byte : Byte) : Statement (.encLoad idx byte) :=
  ⟨packWord 3 0 idx byte, rfl, by simp, by simp [decodeWord], rfl⟩

theorem encStart (id cmd np : Byte) : Statement (.encStart id cmd np) :=
  ⟨packWord 4 id cmd np, rfl, by simp, by simp [decodeWord], rfl⟩

theorem decByte (byte : Byte) : Statement (.decByte byte) :=
  ⟨packWord 5 0 0 byte, rfl, by simp, by simp [decodeWord], rfl⟩

theorem decEnd : Statement .decEnd := ⟨_, rfl, rfl, rfl, rfl⟩

theorem framePing (id : Byte) : Statement (.framePing id) :=
  ⟨rfl, fun r h => by cases h; rfl⟩

theorem frameRead (id address width : Byte) : Statement (.frameRead id address width) :=
  ⟨rfl, fun r h => by cases h; rfl⟩

theorem frameWrite (id address : Byte) (width value : Nat) : Statement (.frameWrite id address width value) := by
  refine ⟨rfl, fun r h => ?_⟩
  simp only [requestOf] at h
  split at h
  · cases h
    rfl
  · cases h

end Sys2Proof.Laws.OpcodeRow
end

