-- ==== Sys2Proof/Laws/Units.lean ====
section
/-! SUPPORT. What a command and a step leave of each sub-unit (10_state R33, R34, 60_exceptions R209). -/

namespace Sys2Proof.Machine

theorem SameEncoder.refl (s : State) : SameEncoder s s := by
  simp [SameEncoder]

theorem SameEncoder.trans {a b c : State} (h : SameEncoder a b) (h2 : SameEncoder b c) : SameEncoder a c := by
  obtain ⟨a1, a2, a3, a4, a5, a6, a7, a8⟩ := h
  obtain ⟨b1, b2, b3, b4, b5, b6, b7, b8⟩ := h2
  exact ⟨a1.trans b1, a2.trans b2, a3.trans b3, a4.trans b4, a5.trans b5, a6.trans b6, a7.trans b7, a8.trans b8⟩

theorem SameDecoder.refl (s : State) : SameDecoder s s := by
  simp [SameDecoder]

theorem SameDecoder.trans {a b c : State} (h : SameDecoder a b) (h2 : SameDecoder b c) : SameDecoder a c := by
  obtain ⟨a1, a2, a3, a4, a5, a6, a7, a8, a9⟩ := h
  obtain ⟨b1, b2, b3, b4, b5, b6, b7, b8, b9⟩ := h2
  exact ⟨a1.trans b1, a2.trans b2, a3.trans b3, a4.trans b4, a5.trans b5, a6.trans b6, a7.trans b7, a8.trans b8,
    a9.trans b9⟩

/-- A start touches the encoder only. -/
theorem startFrame_frame (s : State) (id cmd np : Byte) :
    (startFrame s id cmd np).cuAcc = s.cuAcc ∧ SameDecoder s (startFrame s id cmd np) ∧
    SameHost s (startFrame s id cmd np) ∧ (startFrame s id cmd np).pbufE = s.pbufE := by
  rcases startFrame_cases s id cmd np with ⟨_, h⟩ | ⟨_, _, h⟩ | ⟨_, _, h⟩ <;> rw [h] <;>
    exact ⟨rfl, SameDecoder.refl s, ⟨rfl, rfl⟩, rfl⟩

/-- A held `enc.frame` changes nothing. -/
theorem encFrame_of_busy {id cmd : Byte} {P : List Byte} {s : State} (hb : s.encBusy = true) :
    encFrame id cmd P s = if P.length > 255 then .refused .operandNotEncodable else .next s := by
  simp [encFrame, hb]

/-- The step that begins an `enc.frame` touches the encoder and the host's script only. -/
theorem encFrame_frame {id cmd : Byte} {P : List Byte} {s t : State} (h : encFrame id cmd P s = .next t) :
    t.cuAcc = s.cuAcc ∧ SameDecoder s t ∧ s.taken = t.taken := by
  rcases encFrame_cases id cmd P s with ⟨_, e⟩ | ⟨_, _, e⟩ | ⟨_, _, e⟩ | ⟨p, P', _, _, _, e⟩ <;> rw [e] at h <;> cases h
  · exact ⟨rfl, SameDecoder.refl s, rfl⟩
  · have f := startFrame_frame s id cmd 0
    exact ⟨f.1, f.2.1, f.2.2.1.2⟩
  · simp [SameDecoder]

/-- A received byte touches `RXCNT` and `RXBUF` only. -/
theorem receiveByte_frame (s : State) (b : Byte) :
    receiveByte s b = { s with rxCnt := (receiveByte s b).rxCnt, rxBuf := (receiveByte s b).rxBuf } := by
  rcases receiveByte_cases s b with ⟨_, h⟩ | ⟨_, h⟩ | ⟨_, h⟩ <;> rw [h] <;> rfl

/-- The emission part touches four fields. -/
theorem emission_frame (pre post : State) (r : Bool) :
    emission pre r post =
      { post with encAcc := (emission pre r post).encAcc, encBusy := (emission pre r post).encBusy
                  encPos := (emission pre r post).encPos, taken := (emission pre r post).taken } := by
  rcases emission_cases pre post r with ⟨_, h⟩ | ⟨_, _, h⟩ <;> rw [h]

/-- What an instruction leaves in `CU_ACC` (10_state R34). -/
theorem exec_cuAcc {i : Instr} {s t : State} : exec i s = .next t →
    t.cuAcc = match i with
      | .cuClr => 0
      | .cuAdd b => s.cuAcc + b
      | _ => s.cuAcc := by
  intro h
  cases i with
  | nop => cases h; rfl
  | cuClr => cases h; rfl
  | cuAdd b => cases h; rfl
  | encLoad k b => simp only [exec, execEncLoad] at h; split at h <;> cases h <;> rfl
  | encStart id cmd np =>
    simp only [exec, execEncStart] at h
    split at h <;> cases h
    · rfl
    · exact (startFrame_frame s id cmd np).1
  | decByte b =>
    cases h
    show (receiveByte s b).cuAcc = s.cuAcc
    rw [receiveByte_frame]
  | decEnd => cases h; rfl
  | framePing id => exact (encFrame_frame (id := id) (cmd := 1) (P := []) h).1
  | frameRead id a w => exact (encFrame_frame (id := id) (cmd := 2) (P := [a, w]) h).1
  | frameWrite id a w v =>
    simp only [exec, execFrameWrite] at h
    split at h
    · exact (encFrame_frame h).1
    · cases h

/-- What an instruction leaves of the decoder (10_state R34). -/
theorem exec_decoder {i : Instr} {s t : State} : exec i s = .next t →
    match i with
    | .decByte b => t = receiveByte s b
    | .decEnd => t = (s.setResult (decResult s)).setRxCnt 0
    | _ => SameDecoder s t := by
  intro h
  cases i with
  | decByte b => cases h; rfl
  | decEnd => cases h; rfl
  | nop => cases h; exact SameDecoder.refl _
  | cuClr => cases h; simp [SameDecoder]
  | cuAdd b => cases h; simp [SameDecoder]
  | encLoad k b => simp only [exec, execEncLoad] at h; split at h <;> cases h <;> simp [SameDecoder]
  | encStart id cmd np =>
    simp only [exec, execEncStart] at h
    split at h <;> cases h
    · exact SameDecoder.refl _
    · exact (startFrame_frame s id cmd np).2.1
  | framePing id => exact (encFrame_frame (id := id) (cmd := 1) (P := []) h).2.1
  | frameRead id a w => exact (encFrame_frame (id := id) (cmd := 2) (P := [a, w]) h).2.1
  | frameWrite id a w v =>
    simp only [exec, execFrameWrite] at h
    split at h
    · exact (encFrame_frame h).2.1
    · cases h

/-- While a frame is in flight no command writes the encoder (10_state R33). -/
theorem runCommand_encoder_of_busy {c : Command} {s u : State} (hb : s.encBusy = true)
    (h : runCommand s c = .next u) : SameEncoder s u := by
  have wire : ∀ {id cmd : Byte} {P : List Byte}, encFrame id cmd P s = .next u → SameEncoder s u := by
    intro id cmd P e
    rw [encFrame_of_busy hb] at e
    split at e <;> cases e
    exact SameEncoder.refl s
  rcases runCommand_cases h with ⟨i, _, e⟩ | ⟨q, _, _, _, e⟩
  · rcases exec_cases e with rfl | ⟨v, rfl⟩ | ⟨hn, _⟩ | ⟨hn, _⟩ | ⟨b, _, rfl⟩ | ⟨_, rfl⟩ | ⟨hn, _⟩
    · exact SameEncoder.refl _
    · simp [SameEncoder]
    · rw [hb] at hn; cases hn
    · rw [hb] at hn; cases hn
    · rw [receiveByte_frame]; simp [SameEncoder]
    · simp [SameEncoder]
    · rw [hb] at hn; cases hn
  · exact wire e

/-- A command takes no byte. -/
theorem runCommand_taken {c : Command} {s u : State} (h : runCommand s c = .next u) : s.taken = u.taken := by
  rcases runCommand_cases h with ⟨i, _, e⟩ | ⟨q, _, _, _, e⟩
  · rcases exec_cases e with rfl | ⟨v, rfl⟩ | ⟨_, _, _, rfl⟩ | ⟨_, _, _, _, rfl⟩ | ⟨b, _, rfl⟩ | ⟨_, rfl⟩ |
      ⟨_, p, ws, rfl⟩
    · rfl
    · rfl
    · rfl
    · exact (startFrame_frame ..).2.2.1.2
    · rw [receiveByte_frame]
    · rfl
    · rfl
  · exact (encFrame_frame e).2.2

/-- While a frame is in flight a command leaves the host's side. -/
theorem runCommand_host_of_busy {c : Command} {s u : State} (hb : s.encBusy = true) (h : runCommand s c = .next u) :
    SameHost s u := by
  refine ⟨?_, runCommand_taken h⟩
  rcases runCommand_cases h with ⟨i, _, e⟩ | ⟨q, _, _, _, e⟩
  · rcases exec_cases e with rfl | ⟨v, rfl⟩ | ⟨hn, _⟩ | ⟨hn, _⟩ | ⟨b, _, rfl⟩ | ⟨_, rfl⟩ | ⟨hn, _⟩
    · rfl
    · rfl
    · rw [hb] at hn; cases hn
    · rw [hb] at hn; cases hn
    · rw [receiveByte_frame]
    · rfl
    · rw [hb] at hn; cases hn
  · rw [encFrame_of_busy hb] at e
    split at e <;> cases e
    rfl

/-- What a step presents when its command decodes. -/
theorem presents_of_decode {inp : StepInput} {c : Command} {i : Instr} (hr : inp.rst = false)
    (hc : inp.cmd = some c) (hd : decodeCommand c = .instr i) : presents inp = some i := by
  simp [presents, hr, hc, hd, Decoded.instr?]

/-- Nothing is presented without a command. -/
theorem presents_of_no_cmd {inp : StepInput} (hr : inp.rst = false) (hc : inp.cmd = none) : presents inp = none := by
  simp [presents, hr, hc]

/-- A command that does not decode presents no instruction. -/
theorem presents_of_reject {inp : StepInput} {c : Command} {e : Reject} (hr : inp.rst = false)
    (hc : inp.cmd = some c) (hd : decodeCommand c = .reject e) : presents inp = none := by
  simp [presents, hr, hc, hd, Decoded.instr?]

/-- What a normal step leaves in `CU_ACC` (10_state R34). -/
theorem clock_cuAcc {inp : StepInput} {s t : State} (hr : inp.rst = false) :
    clock inp s = .next t → t.cuAcc = match presents inp with
      | some .cuClr => 0
      | some (.cuAdd b) => s.cuAcc + b
      | _ => s.cuAcc := by
  intro h
  rcases clock_cases h with ⟨h1, _⟩ | ⟨_, h2, rfl⟩ | ⟨_, c, u, h2, h3, rfl⟩
  · rw [hr] at h1; cases h1
  · rw [presents_of_no_cmd hr h2, emission_frame]
  · rw [emission_frame]
    rcases runCommand_cases h3 with ⟨i, h4, h5⟩ | ⟨q, e, rfl, h4, h5⟩
    · rw [presents_of_decode hr h2 h4]
      simp only [exec_cuAcc h5]
      cases i <;> rfl
    · rw [presents_of_reject hr h2 h4]
      exact (encFrame_frame h5).1

/-- What a normal step leaves of the decoder (10_state R34). -/
theorem clock_decoder {inp : StepInput} {s t : State} (hr : inp.rst = false) :
    clock inp s = .next t → match presents inp with
    | some (.decByte b) => SameDecoder (receiveByte s b) t
    | some .decEnd => SameDecoder ((s.setResult (decResult s)).setRxCnt 0) t
    | _ => SameDecoder s t := by
  intro h
  have em : ∀ u, SameDecoder u (emission s inp.outReady u) := by
    intro u
    rw [emission_frame]
    simp [SameDecoder]
  rcases clock_cases h with ⟨h1, _⟩ | ⟨_, h2, rfl⟩ | ⟨_, c, u, h2, h3, rfl⟩
  · rw [hr] at h1; cases h1
  · rw [presents_of_no_cmd hr h2]; exact em s
  · rcases runCommand_cases h3 with ⟨i, h4, h5⟩ | ⟨q, e, rfl, h4, h5⟩
    · rw [presents_of_decode hr h2 h4]
      have := exec_decoder h5
      cases i with
      | decByte b => simp only at this ⊢; rw [← this]; exact em u
      | decEnd => simp only at this ⊢; rw [← this]; exact em u
      | _ => exact this.trans (em u)
    · rw [presents_of_reject hr h2 h4]
      exact (encFrame_frame h5).2.1.trans (em u)

/-- A normal step while a frame is in flight is the emission part on a state with the same encoder. -/
theorem clock_of_busy {inp : StepInput} {s t : State} (hb : s.encBusy = true) (hr : inp.rst = false)
    (h : clock inp s = .next t) : ∃ u, SameEncoder s u ∧ SameHost s u ∧ t = emission s inp.outReady u := by
  rcases clock_cases h with ⟨h1, _⟩ | ⟨_, _, rfl⟩ | ⟨_, c, u, _, h3, rfl⟩
  · rw [hr] at h1; cases h1
  · exact ⟨s, SameEncoder.refl s, ⟨rfl, rfl⟩, rfl⟩
  · exact ⟨u, runCommand_encoder_of_busy hb h3, runCommand_host_of_busy hb h3, rfl⟩

end Sys2Proof.Machine
end

