-- ==== Sys2Proof/Laws/WireCommands.lean ====
section
/-! SUPPORT. What the lines of an `enc.frame` amount to, and the run that presents them (30_encoding R73, R74). -/

namespace Sys2Proof.Machine

/-- Loading parameters changes `PBUF_E` only. -/
theorem loadParams_eq (s : State) (i : Nat) (P : List Byte) :
    s.loadParams i P = { s with pbufE := (s.loadParams i P).pbufE } := by
  induction P generalizing s i with
  | nil => rfl
  | cons v P ih =>
    rw [State.loadParams, ih]
    rfl

/-- Entry `j` after the loads: the parameter loaded there, else the old entry. -/
theorem get_loadParams (s : State) (i j : Nat) (P : List Byte) (h : i + P.length ≤ 256) :
    (s.loadParams i P).pbufE.get j =
      if i ≤ j ∧ j < i + P.length then byteAt P (j - i) else s.pbufE.get j := by
  induction P generalizing s i with
  | nil =>
    simp [State.loadParams]
  | cons v P ih =>
    simp only [List.length_cons] at h
    rw [State.loadParams, ih _ _ (by omega)]
    simp only [State.setPbufE_pbufE, List.length_cons]
    rcases Nat.lt_trichotomy j i with hlt | heq | hgt
    · rw [if_neg (by omega), if_neg (by omega), ByteBuf.get_set_of_ne _ _ (by omega)]
    · subst heq
      rw [if_neg (by omega), if_pos (by omega), ByteBuf.get_set_self _ _ (by omega)]
      simp [byteAt]
    · have hk : j - i = (j - (i + 1)) + 1 := by omega
      by_cases hj : j < i + (P.length + 1)
      · rw [if_pos (by omega), if_pos (by omega), hk]
        simp [byteAt]
      · rw [if_neg (by omega), if_neg (by omega), ByteBuf.get_set_of_ne _ _ (by omega)]

/-- Loads leave the host's script as it is. -/
theorem loadParams_setHost (s : State) (acts : List HostAct) (i : Nat) (P : List Byte) :
    (s.setHost acts).loadParams i P = (s.loadParams i P).setHost acts := by
  induction P generalizing s i with
  | nil => rfl
  | cons v P ih => exact ih (s.setPbufE i v) (i + 1)

/-- A byte is an operand (30_encoding R73). -/
theorem operandByte_toNat (b : Byte) : operandByte b.toNat = some b := by
  have := b.isLt
  simp [operandByte]
  omega

theorem operandByte_of_lt {n : Nat} (h : n < 256) : operandByte n = some (BitVec.ofNat 8 n) := by
  simp [operandByte]
  omega

theorem assemble_encLoad {i : Nat} (b : Byte) (h : i < 256) :
    assemble (.encLoad i b.toNat) = some (packWord 3 0 (BitVec.ofNat 8 i) b) := by
  simp [assemble, operandByte_toNat, operandByte_of_lt h, packWord]

theorem assemble_encStart (id cmd : Byte) {n : Nat} (h : n < 256) :
    assemble (.encStart id.toNat cmd.toNat n) = some (packWord 4 id cmd (BitVec.ofNat 8 n)) := by
  simp [assemble, operandByte_toNat, operandByte_of_lt h, packWord]

/-- The lines of an `enc.frame` from parameter `i` on assemble to its words (30_encoding R73, R74). -/
theorem hostActs_frameLines (r : Bool) (id cmd : Byte) {n : Nat} (hn : n < 256) (P : List Byte) :
    ∀ i, i + P.length ≤ 256 →
      hostActs r (((P.mapIdx fun k (b : Byte) => AsmLine.encLoad (k + i) b.toNat) ++
          [AsmLine.encStart id.toNat cmd.toNat n]).map .line) =
        some ((frameWords id cmd (BitVec.ofNat 8 n) i P).map fun w => .present (.word w) r) := by
  induction P with
  | nil =>
    intro i _
    simp [hostActs, assemble_encStart id cmd hn, frameWords]
  | cons b P ih =>
    intro i h
    simp only [List.length_cons] at h
    have e : (fun (k : Nat) (b : Byte) => AsmLine.encLoad (k + 1 + i) b.toNat) =
        fun k b => .encLoad (k + (i + 1)) b.toNat := by
      funext k b
      congr 1
      omega
    simp only [List.mapIdx_cons, List.cons_append, List.map_cons, hostActs, Nat.zero_add,
      assemble_encLoad b (show i < 256 by omega), frameWords]
    rw [e, ih (i + 1) (by omega)]

/-- The lines of an `enc.frame`, in the form `hostActs_frameLines` reads (30_encoding R74). -/
theorem encFrameLines_eq (id cmd : Nat) (P : List Byte) :
    encFrameLines id cmd (P.map BitVec.toNat) =
      (P.mapIdx fun k (b : Byte) => AsmLine.encLoad (k + 0) b.toNat) ++ [AsmLine.encStart id cmd P.length] := by
  have : (P.map BitVec.toNat).mapIdx (fun i p => AsmLine.encLoad i p) =
      P.mapIdx fun k (b : Byte) => AsmLine.encLoad (k + 0) b.toNat := by
    apply List.ext_getElem <;> simp
  simp only [encFrameLines, this, List.length_map]

/-- A word that decodes runs its instruction. -/
theorem runCommand_word {w : Word} {i : Instr} (h : decodeWord w = .instr i) (s : State) :
    runCommand s (.word w) = exec i s := by
  simp only [runCommand, h]

/-- The word of a line `enc.load i, p` is ready while the encoder is idle, and loads the parameter. -/
theorem step_encLoad_line {s : State} {i : Nat} {p : Byte} {r : Bool} {rest : List HostAct} (hb : s.encBusy = false)
    (hi : i < 256) (h : s.host = .present (.word (packWord 3 0 (BitVec.ofNat 8 i) p)) r :: rest) :
    step s = .next ((s.setPbufE i p).setHost rest) := by
  have hd : decodeWord (packWord 3 0 (BitVec.ofNat 8 i) p) = .instr (.encLoad (BitVec.ofNat 8 i) p) := by
    simp [decodeWord]
  rw [step_present h, clock_idle (by exact hb)]
  simp only [cmdReady, wordReady, hb, Bool.false_and, Bool.not_false, if_true, runCommand_word hd, exec, execEncLoad,
    State.setHost_encBusy, Bool.false_eq_true, if_false, BitVec.toNat_ofNat, Nat.mod_eq_of_lt hi]
  rfl

/-- The word of a line `enc.start id, cmd, np` is ready while the encoder is idle, and starts the frame. -/
theorem step_encStart_line {s : State} {id cmd np : Byte} {r : Bool} {rest : List HostAct} (hb : s.encBusy = false)
    (h : s.host = .present (.word (packWord 4 id cmd np)) r :: rest) :
    step s = .next ((startFrame s id cmd np).setHost rest) := by
  have hd : decodeWord (packWord 4 id cmd np) = .instr (.encStart id cmd np) := by
    simp [decodeWord]
  rw [step_present h, clock_idle (by exact hb)]
  simp only [cmdReady, wordReady, hb, Bool.false_and, Bool.not_false, if_true, runCommand_word hd, exec, execEncStart,
    State.setHost_encBusy, Bool.false_eq_true, if_false, startFrame_setHost]

/-- A run whose first step answers a next state goes on from it. -/
theorem run_succ_of_next {k : Nat} {s t : State} (h : step s = .next t) :
    Host.Core.run Sys2Proof.core (k + 1) s = Host.Core.run Sys2Proof.core k t := by
  have h' : Sys2Proof.core.step s = .next t := h
  simp only [Host.Core.run, h']

/-- From an idle encoder the run that presents the lines of an `enc.frame` from parameter `i` on, one a step, ends with
those parameters loaded and the start executed. -/
theorem run_frameWords (id cmd np : Byte) (r : Bool) (rest : List HostAct) (P : List Byte) :
    ∀ (i : Nat) (s : State), s.encBusy = false → i + P.length ≤ 256 →
      s.host = (frameWords id cmd np i P).map (fun w => .present (.word w) r) ++ rest →
      Host.Core.run Sys2Proof.core (P.length + 1) s =
        .next ((startFrame (s.loadParams i P) id cmd np).setHost rest) := by
  induction P with
  | nil =>
    intro i s hb _ h
    exact run_succ_of_next (k := 0) (step_encStart_line hb h)
  | cons p P ih =>
    intro i s hb hl h
    simp only [List.length_cons] at hl
    rw [List.length_cons, run_succ_of_next (step_encLoad_line hb (by omega) h),
      ih (i + 1) _ (by exact hb) (by omega) rfl, loadParams_setHost, startFrame_setHost]
    rfl

/-- What an `enc.frame` amounts to: its parameters stand in the first entries, and the start's outcome is that of its
parameter count and ID (30_encoding R74, 41_packet_encoder R124). -/
theorem runFrame_facts (s : State) (q : Request) (hl : q.params.length ≤ 255) :
    (∀ j, (s.runFrame q).pbufE.get j = if j < q.params.length then byteAt q.params j else s.pbufE.get j) ∧
    (253 < q.params.length → s.runFrame q = { s with encStatus := .errNParams, pbufE := (s.runFrame q).pbufE }) ∧
    (q.params.length ≤ 253 → 253 < q.id.toNat →
      s.runFrame q = { s with encStatus := .errId, pbufE := (s.runFrame q).pbufE }) ∧
    (q.params.length ≤ 253 → q.id.toNat ≤ 253 →
      s.runFrame q = { s with encId := q.id, encCmd := q.cmd, encNp := BitVec.ofNat 8 q.params.length, encPos := 0,
                              encAcc := 0, encBusy := true, encStatus := .accepted, pbufE := (s.runFrame q).pbufE } ∧
      frameInFlight (s.runFrame q) = frameOf (frameBody q.id q.cmd q.params)) := by
  have hp : (s.runFrame q).pbufE = (s.loadParams 0 q.params).pbufE := (startFrame_frame ..).2.2.2
  have hn : (BitVec.ofNat 8 q.params.length).toNat = q.params.length := by simp; omega
  have hg : ∀ j, (s.runFrame q).pbufE.get j = if j < q.params.length then byteAt q.params j else s.pbufE.get j := by
    intro j
    rw [hp, get_loadParams _ _ _ _ (by omega)]
    simp
  refine ⟨hg, ?_⟩
  rw [hp]
  have he := loadParams_eq s 0 q.params
  rcases startFrame_cases (s.loadParams 0 q.params) q.id q.cmd (BitVec.ofNat 8 q.params.length) with
    ⟨h1, e⟩ | ⟨h1, h2, e⟩ | ⟨h1, h2, e⟩ <;> rw [hn] at h1
  · refine ⟨fun _ => ?_, fun h => absurd h (by omega), fun h => absurd h (by omega)⟩
    rw [State.runFrame, e]
    conv_lhs => rw [he]
    rfl
  · refine ⟨fun h => absurd h (by omega), fun _ _ => ?_, fun _ h => absurd h (by omega)⟩
    rw [State.runFrame, e]
    conv_lhs => rw [he]
    rfl
  · refine ⟨fun h => absurd h (by omega), fun _ h => absurd h (by omega), fun _ _ => ⟨?_, ?_⟩⟩
    · rw [State.runFrame, e]
      conv_lhs => rw [he]
      rfl
    · have hfp : frameParams (s.runFrame q) = q.params := by
        have hnp : (s.runFrame q).encNp.toNat = q.params.length := by rw [State.runFrame, e]; simp; omega
        unfold frameParams
        rw [hnp]
        apply List.ext_getElem
        · simp [(s.runFrame q).pbufE.size]; omega
        · intro j h3 h4
          have := hg j
          rw [if_pos h4, ByteBuf.get_eq_getElem _ (by omega)] at this
          simp [byteAt, List.getD_eq_getElem?_getD, h4] at this
          simpa using this
      unfold frameInFlight
      rw [hfp]
      have : (s.runFrame q).encId = q.id ∧ (s.runFrame q).encCmd = q.cmd := by rw [State.runFrame, e]; simp
      rw [this.1, this.2]

end Sys2Proof.Machine
end

