-- ==== Sys2Proof/Tests/Slice0.lean ====
section
/-! SUPPORT. Tests: expected results from the spec's own vectors, and a witness for every statement that has
hypotheses. -/

namespace Sys2Proof.Tests

open Sys2Proof Sys2Proof.Machine

/-- A normal step that presents a word. -/
def onWord (w : Word) (ready : Bool) : StepInput := { rst := false, cmd := some (.word w), outReady := ready }

/-- A normal step without a command. -/
def onIdle (ready : Bool) : StepInput := { rst := false, cmd := none, outReady := ready }

/-- The reset state with a ping to ID 1 in flight, at its last byte (41_packet_encoder R125, example). -/
def lastByte : State :=
  { State.reset with encBusy := true, encPos := 5, encId := 1, encCmd := 1, encAcc := 4, encStatus := .accepted }

/-- The reset state after `DEC_BYTE` of each byte (42_packet_decoder R152). -/
def fed (B : List Byte) : State :=
  { State.reset with rxCnt := BitVec.ofNat 9 B.length, rxBuf := ByteBuf.tabulate 259 (byteAt B) }

/-- The reset state with the parameters of the worked frame loaded (95_test_vectors P3). -/
def loaded : State := State.reset.loadParams 0 [0x2A, 0x00, 0x08, 0xF4, 0x01]

/-- A field of the state an instruction leaves. -/
def after {α : Type} (i : Instr) (s : State) (f : State → α) : Option α := (next? (exec i s)).map f

/-- A field of the state a step leaves. -/
def clocked {α : Type} (inp : StepInput) (s : State) (f : State → α) : Option α := (next? (clock inp s)).map f

/-- Why an outcome is a refusal, if it is one. -/
def refusal? : Host.Outcome State Fault Refusal → Option Refusal
  | .next _ => none
  | .fault _ => none
  | .refused r => some r

/-! ## Well-formedness -/

/-- Broadcast ID 254 is refused, 253 is not (30_encoding R72). -/
theorem test_wf_id :
    Instr.wellFormed (.framePing 254) = false ∧ Instr.wellFormed (.framePing 253) = true ∧
    Instr.wellFormed (.frameRead 255 0x41 1) = false ∧ Instr.wellFormed (.frameRead 253 0x41 1) = true ∧
    Instr.wellFormed (.frameWrite 254 0x28 1 1) = false := by decide

/-- The value fills at most 252 bytes (43_wire_commands R182). -/
theorem test_wf_width :
    Instr.wellFormed (.frameWrite 1 0x28 253 0) = false ∧ Instr.wellFormed (.frameWrite 1 0x28 252 0) = true := by
  decide +kernel

/-- The value must fit its width (43_wire_commands R184). -/
theorem test_wf_value :
    Instr.wellFormed (.frameWrite 1 0x28 1 256) = false ∧ Instr.wellFormed (.frameWrite 1 0x28 1 255) = true := by
  decide

/-! ## Decoding: words written out bit by bit from 30_encoding R61 to R65, frames from 95_test_vectors -/

theorem test_decode_nop : decodeWord 0b0000_1111111111111111111111111111 = .instr .nop := by decide

theorem test_decode_cuClr : decodeWord 0b0001_0000000000000000000000000000 = .instr .cuClr := by decide

theorem test_decode_cuAdd : decodeWord 0b0010_10101011110011011110_00000101 = .instr (.cuAdd 0x05) := by decide

theorem test_decode_encLoad :
    decodeWord 0b0011_000000000000_00000011_11110100 = .instr (.encLoad 3 0xF4) := by decide

theorem test_decode_encStart :
    decodeWord 0b0100_0000_00000001_00000011_00000101 = .instr (.encStart 1 3 5) := by decide

theorem test_decode_decByte : decodeWord 0b0101_00000000000000000000_11111111 = .instr (.decByte 0xFF) := by decide

theorem test_decode_decEnd : decodeWord 0b0110_0000000000000000000000000000 = .instr .decEnd := by decide

theorem test_decode_reserved :
    decodeWord 0x70000000 = .reject (.reservedOpcode 7) ∧ decodeWord 0xFFFFFFFF = .reject (.reservedOpcode 15) := by
  decide

theorem test_decode_ping :
    decodeFrame [0xFF, 0xFF, 0x01, 0x02, 0x01, 0xFB] = .instr (.framePing 1) := by decide

theorem test_decode_read :
    decodeFrame [0xFF, 0xFF, 0x01, 0x04, 0x02, 0x09, 0x02, 0xED] = .instr (.frameRead 1 0x09 2) := by decide

/-- Goal 2048 and speed 500, little-endian (95_test_vectors section 1.1). -/
theorem test_decode_write :
    decodeFrame [0xFF, 0xFF, 0x01, 0x07, 0x03, 0x2A, 0x00, 0x08, 0xF4, 0x01, 0xCD] =
      .instr (.frameWrite 1 0x2A 4 (2048 + 500 * 65536)) := by decide

/-- Frames that are no request: an unknown code, a wrong parameter count, the broadcast ID, the printed frame of
90_conflicts C1. -/
theorem test_decode_rejects :
    decodeFrame [0xFF, 0xFF, 0xFD, 0x03, 0xFF, 0xFF, 0x01] = .reject (.unknownCommand 0xFF) ∧
    decodeFrame [0xFF, 0xFF, 0x01, 0x03, 0x01, 0x00, 0xFA] = .reject (.paramCount 1 1) ∧
    decodeFrame [0xFF, 0xFF, 0xFE, 0x02, 0x01, 0xFE] = .reject (.reservedId 0xFE) ∧
    decodeFrame [0xFF, 0xFF, 0x01, 0x07, 0x03, 0x00, 0x08, 0xF4, 0x01, 0xF7] = .reject (.badFrame .truncatedFrame) := by
  decide

/-- Torque-enable and PID frames (43_wire_commands R182, R187). -/
theorem test_encode_write :
    encodeFrame (.frameWrite 1 0x28 1 1) = some [0xFF, 0xFF, 0x01, 0x04, 0x03, 0x28, 0x01, 0xCE] ∧
    encodeFrame (.frameWrite 1 0x30 3 (32 + 32 * 65536)) =
      some [0xFF, 0xFF, 0x01, 0x06, 0x03, 0x30, 0x20, 0x00, 0x20, 0x85] := by decide

/-- Words of 95_test_vectors section 3. -/
theorem test_encode_words :
    encodeWord .nop = some 0x00000000 ∧ encodeWord .cuClr = some 0x10000000 ∧
    encodeWord (.cuAdd 0xF4) = some 0x200000F4 ∧ encodeWord (.encLoad 2 0x08) = some 0x30000208 ∧
    encodeWord (.encStart 0xFE 1 0) = some 0x40FE0100 ∧ encodeWord (.decByte 0xF2) = some 0x500000F2 ∧
    encodeWord .decEnd = some 0x60000000 := by decide

/-- The table's rows, CMD rows of 32 bits and FRAME rows of 8. -/
theorem test_tableWord :
    decodeTableWord 32 0x20000000 = some (.cuAdd 0) ∧ decodeTableWord 32 0x70000000 = none ∧
    decodeTableWord 8 1 = some (.framePing 0) ∧ decodeTableWord 8 2 = some (.frameRead 0 0 0) ∧
    decodeTableWord 8 3 = some (.frameWrite 0 0 1 0) := by decide

/-- The first step after reset runs the instruction placed; of a FRAME_READ, its first line (30_encoding R73, R74). -/
theorem test_withFetchWord :
    (next? (step (State.reset.withFetchWord 32 0x50000007))).map (·.rxCnt) = some 1 ∧
    (next? (step (State.reset.withFetchWord 8 1))).map (fun t => (t.encBusy, t.encCmd, t.host)) = some (true, 1, []) ∧
    (next? (step (State.reset.withFetchWord 8 2))).map (fun t => (t.encBusy, t.host)) =
      some (false, [.present (.word 0x30000100) false, .present (.word 0x40000202) false]) := by decide

/-! ## Assembler text (30_encoding R73, R74) -/

theorem test_asm_command :
    parseLine ['e', 'n', 'c', '.', 'l', 'o', 'a', 'd', ' ', '0', ',', ' ', '0', 'x', '2', 'A'] =
      some [.line (.encLoad 0 0x2A)] := by decide

theorem test_asm_pseudo :
    parseLine ['d', 'e', 'c', '.', 'f', 'r', 'a', 'm', 'e', ' ', '0', 'x', 'F', 'F', ',', '1'] =
      some [.line (.decByte 255), .line (.decByte 1), .line .decEnd] := by decide

theorem test_asm_operand_too_large : assemble (.cuAdd 256) = none ∧ assemble (.cuAdd 255) = some 0x200000FF := by
  decide

/-! ## checksum, build, parse (95_test_vectors) -/

theorem test_checksum :
    checksum [] = 0xFF ∧ checksum [0xFF, 0x01] = 0xFF ∧ checksum [0xFF, 0xFF, 0xFF, 0xFF] = 0x03 ∧
    checksum [0x01, 0x07, 0x03, 0x2A, 0x00, 0x08, 0xF4, 0x01] = 0xCD := by decide

theorem test_build :
    build 0 0 [] = .frame [0xFF, 0xFF, 0x00, 0x02, 0x00, 0xFD] ∧ build 254 1 [] = .errId ∧
    build 0xFD 0xFF [0xFF] = .frame [0xFF, 0xFF, 0xFD, 0x03, 0xFF, 0xFF, 0x01] := by decide +kernel

theorem test_parse_ok :
    parse [0xFF, 0xFF, 0x01, 0x04, 0x00, 0x00, 0x08, 0xF2] =
      .ok { id := 1, len := 4, err := 0, params := [0x00, 0x08], chk := 0xF2 } := by decide

theorem test_parse_errors :
    parse [0x00, 0x00, 0x00] = .truncatedFrame ∧ parse [0xFF, 0x00, 0x01, 0x02, 0x00, 0xFC] = .framingError ∧
    parse [0xFF, 0xFF, 0x01, 0x02, 0x00, 0xFC, 0x00] = .truncatedFrame ∧
    parse [0xFF, 0xFF, 0x01, 0x02, 0x00, 0xFD] = .checksumError := by decide

theorem test_mtOffset :
    mtOffset true 0x8005 = -5 ∧ mtOffset false 0x8005 = 5 ∧ mtOffset true 0x7FFF = 32767 ∧
    mtOffset false 0x7FFF = -32767 := by decide

theorem test_leBytes : leBytes 4095 2 = some [0xFF, 0x0F] ∧ leBytes 256 1 = none ∧ le16 0x00 0x08 = 2048 := by decide

/-- The frames of the source's named sequences (43_wire_commands R187, 41_packet_encoder R129). -/
theorem test_controlTable_frames :
    encodeFrame (lockWrite 1 .unlock) = some [0xFF, 0xFF, 0x01, 0x04, 0x03, 0x37, 0x00, 0xC0] ∧
    encodeFrame (lockWrite 1 .relock) = some [0xFF, 0xFF, 0x01, 0x04, 0x03, 0x37, 0x01, 0xBF] ∧
    encodeFrame (pidWrite 1 32 0 32) = some [0xFF, 0xFF, 0x01, 0x06, 0x03, 0x30, 0x20, 0x00, 0x20, 0x85] ∧
    encodeFrame (maxAngleWrite 1 4095) = some [0xFF, 0xFF, 0x01, 0x05, 0x03, 0x0B, 0xFF, 0x0F, 0xDD] ∧
    encodeFrame (goalSpeedWrite 1 2048 500) =
      some [0xFF, 0xFF, 0x01, 0x07, 0x03, 0x2A, 0x00, 0x08, 0xF4, 0x01, 0xCD] := by decide +kernel

/-! ## One step of each instruction -/

theorem test_nop : after .nop (State.reset.setCuAcc 0x5A) (·.cuAcc) = some 0x5A := by decide

theorem test_cuClr : after .cuClr (State.reset.setCuAcc 0x32) (fun t => (t.cuAcc, t.outputs.cuChk)) = some (0, 0xFF) := by
  decide

theorem test_cuAdd :
    after (.cuAdd 0x01) (State.reset.setCuAcc 0x31) (fun t => (t.cuAcc, t.outputs.cuChk)) = some (0x32, 0xCD) := by
  decide

theorem test_cuAdd_wraps : after (.cuAdd 0x01) (State.reset.setCuAcc 0xFF) (·.cuAcc) = some 0x00 := by decide

theorem test_encLoad : after (.encLoad 255 0x2A) State.reset (fun t => (t.pbufE.get 255, t.pbufE.get 254)) =
    some (0x2A, 0) := by decide +kernel

/-- A load behind a busy frame is held, also in the step of the last byte (95_test_vectors P7). -/
theorem test_encLoad_held :
    clocked (onWord 0x30000055 true) lastByte (fun t => (t.pbufE.get 0, t.encBusy)) = some (0, false) := by decide

theorem test_encStart :
    after (.encStart 1 1 0) State.reset (fun t => (t.encStatus, t.encBusy, t.outputs.encOutByte)) =
      some (.accepted, true, 0xFF) := by decide

/-- Rejected starts (95_test_vectors P6). -/
theorem test_encStart_rejected :
    after (.encStart 254 1 0) State.reset (fun t => (t.encStatus, t.encBusy, t.encId)) = some (.errId, false, 0) ∧
    after (.encStart 255 1 254) State.reset (fun t => (t.encStatus, t.encBusy)) = some (.errNParams, false) := by decide

theorem test_decByte :
    after (.decByte 0xFF) State.reset (fun t => (t.rxCnt, t.rxBuf.get 0)) = some (1, 0xFF) := by decide

/-- From 259 bytes one more is counted and not stored, from 260 none (42_packet_decoder R152). -/
theorem test_decByte_overflow :
    after (.decByte 7) (State.reset.setRxCnt 259) (fun t => (t.rxCnt, t.rxBuf.get 0)) = some (260, 0) ∧
    after (.decByte 7) (State.reset.setRxCnt 260) (·.rxCnt) = some 260 := by decide

theorem test_decEnd :
    after .decEnd (fed [0xFF, 0xFF, 0x01, 0x03, 0x20, 0x05, 0xD6])
      (fun t => (t.decStatus.code, t.decErr, t.decNp, t.decChk, t.pbufD.get 0, t.rxCnt)) =
      some (2, 0x20, 1, 0xD6, 0x05, 0) := by decide +kernel

/-- An error verdict leaves every field 0 (95_test_vectors P5). -/
theorem test_decEnd_error :
    after .decEnd { fed [0xFF, 0xFF, 0x01, 0x02, 0x00, 0xFD] with decId := 1, decNp := 2, decChk := 0xF2 }
      (fun t => (t.decStatus.code, t.decId, t.decNp, t.decChk)) = some (5, 0, 0, 0) := by decide +kernel

theorem test_framePing :
    after (.framePing 253) State.reset (fun t => (t.encStatus, frameInFlight t)) =
      some (.accepted, [0xFF, 0xFF, 0xFD, 0x02, 0x01, 0xFF]) := by decide

theorem test_framePing_broadcast :
    after (.framePing 254) State.reset (fun t => (t.encStatus, t.encBusy)) = some (.errId, false) := by decide

/-- Read status: the first line's load, and the lines that follow (43_wire_commands R181, 30_encoding R73). -/
theorem test_frameRead :
    after (.frameRead 1 0x41 1) State.reset (fun t => (t.pbufE.get 0, t.pbufE.get 1, t.encBusy, t.host)) =
      some (0x41, 0, false, [.present (.word 0x30000101) false, .present (.word 0x40010202) false]) := by decide

/-- Its last line's step starts the frame of 95_test_vectors section 2.2. -/
theorem test_frameRead_last_line :
    (next? (step ((State.reset.loadParams 0 [0x41, 1]).setHost [.present (.word 0x40010202) false]))).map frameInFlight =
      some [0xFF, 0xFF, 0x01, 0x04, 0x02, 0x41, 0x01, 0xB6] := by decide

/-- Max-angle-limit 4095: the value's bytes are loaded least significant first, after the address (43_wire_commands R182). -/
theorem test_frameWrite :
    after (.frameWrite 1 0x0B 2 4095) State.reset (fun t => (t.pbufE.get 0, t.encBusy, t.host)) =
      some (0x0B, false, [.present (.word 0x300001FF) false, .present (.word 0x3000020F) false,
        .present (.word 0x40010303) false]) := by decide

theorem test_frameWrite_value : 
    refusal? (exec (.frameWrite 1 0x28 1 256) State.reset) = some .valueOutOfRange := by decide

/-- The last byte of a ping to ID 1 (41_packet_encoder R125, example). -/
theorem test_emission_last :
    clocked (onIdle true) lastByte (fun t => (t.taken, t.encBusy, t.encPos, t.encAcc)) =
      some ([⟨0xFB, true⟩], false, 0, 4) := by decide

/-- Without `out_ready` the byte stays offered, and a `CU_ADD` is accepted (95_test_vectors section 2.2). -/
theorem test_emission_hold :
    clocked (onWord 0x20000007 false) lastByte (fun t => (t.cuAcc, t.encPos, t.taken)) = some (7, 5, []) := by decide

/-- Reset wins over everything presented (70_reset_and_hazards R220). -/
theorem test_reset_step :
    clocked { rst := true, cmd := some (.word 0x70000000), outReady := true } lastByte
      (fun t => (t.encBusy, t.encPos, t.encStatus, t.taken)) = some (false, 0, .none, []) := by decide

theorem test_reserved_refused :
    refusal? (clock (onWord 0x70000000 false) State.reset) = some (.reservedOpcode 7) := by decide

/-- A stale parameter buffer is sent again (95_test_vectors section 2.2). -/
theorem test_stale_params :
    after (.encStart 1 2 2) loaded frameInFlight = some [0xFF, 0xFF, 0x01, 0x04, 0x02, 0x2A, 0x00, 0xCE] := by decide

/-! ## Witnesses: a state and operands that meet all hypotheses of a statement, at the ends of their ranges -/

/-- The words at the ends of every opcode's range, for each clause. -/
theorem witness_OpcodeMapDecodes :
    (0x0FFFFFFF : Word).toNat / 2 ^ 28 = 0 ∧ (0x10000000 : Word).toNat / 2 ^ 28 = 1 ∧
    (0x2FFFFFFF : Word).toNat / 2 ^ 28 = 2 ∧ (0x30000000 : Word).toNat / 2 ^ 28 = 3 ∧
    (0x4FFFFFFF : Word).toNat / 2 ^ 28 = 4 ∧ (0x50000000 : Word).toNat / 2 ^ 28 = 5 ∧
    (0x6FFFFFFF : Word).toNat / 2 ^ 28 = 6 ∧ 7 ≤ (0x70000000 : Word).toNat / 2 ^ 28 ∧
    7 ≤ (0xFFFFFFFF : Word).toNat / 2 ^ 28 := by decide

theorem witness_IgnoredBitsHaveNoEffect :
    (0x2ABCDE05 : Word) &&& usedMask (opField 0x2ABCDE05) = 0x20000005 &&& usedMask (opField 0x2ABCDE05) ∧
    assemble (.encStart 255 255 255) = some 0x40FFFFFF := by decide

theorem witness_DecodeEncodeIsIdentity :
    Instr.wellFormed (.frameWrite 253 0xFF 252 (256 ^ 252 - 1)) = true ∧ Instr.wellFormed (.encStart 255 0 254) = true := by
  decide +kernel

theorem witness_EncodeDecodeIsIdentity :
    decodeFrame [0xFF, 0xFF, 0x01, 0x03, 0x03, 0x28, 0xD0] = .instr (.frameWrite 1 0x28 0 0) ∧
    decodeWord 0x6FFFFFFF = .instr .decEnd := by decide

/-- A step that has a next state, and one whose instruction is refused. -/
theorem witness_StepRunsDecodedInstruction :
    (∃ t, (State.reset.setHost [.present (.word 0x200000FF) true]).host = .present (.word 0x200000FF) true :: [] ∧
      decodeCommand (.word 0x200000FF) = .instr (.cuAdd 0xFF) ∧ exec (.cuAdd 0xFF) State.reset = .next t) ∧
    decodeCommand (.request ⟨0, 3, List.replicate 256 0⟩) = .instr (.frameWrite 0 0 255 0) ∧
    refusal? (exec (.frameWrite 0 0 255 0) State.reset) = some .operandNotEncodable :=
  ⟨⟨_, rfl, by decide, rfl⟩, by decide +kernel, by decide +kernel⟩

/-- A request with parameters and one without, at an idle and at a busy encoder, and the largest one. -/
theorem witness_OneCommandWordPerStep :
    (List.replicate 255 (0 : Byte)).length ≤ 255 ∧ State.reset.encBusy = false ∧ lastByte.encBusy = true ∧
    clocked { rst := false, cmd := some (.request ⟨1, 2, [0x41, 1]⟩), outReady := true } State.reset
      (fun t => (t.pbufE.get 0, t.pbufE.get 1, t.encPos, t.rxCnt)) = some (0x41, 0, 0, 0) ∧
    clocked { rst := false, cmd := some (.request ⟨1, 1, []⟩), outReady := true } lastByte
      (fun t => (t.encPos, t.encBusy, t.host)) = some (0, false, []) := by decide +kernel

theorem witness_ReservedOpcodeIsRefused :
    7 ≤ (0x70000000 : Word).toNat / 2 ^ 28 ∧ 7 ≤ (0xFFFFFFFF : Word).toNat / 2 ^ 28 := by decide

theorem witness_ResetStepClearsEveryRegister :
    (⟨true, some (.word 0xF0000000), true⟩ : StepInput).rst = true := rfl

/-- A frame at its last byte, an OK result and an overflowed count. -/
def midRun : State := { lastByte with rxCnt := 260, decStatus := .ok, decId := 1, decLen := 2, decChk := 0xFC }

theorem witness_EveryStepKeepsInvariant : ∃ t : State, Machine.Inv midRun ∧ step midRun = .next t := by
  refine ⟨_, ⟨⟨by decide, by decide, (fun h => ?_), (fun _ => by decide +kernel)⟩,
    by decide, (fun h => ?_), (fun _ => ⟨by decide, by decide, by decide, (fun i _ => ?_), by decide⟩)⟩, rfl⟩
  · cases h
  · cases h
  · exact ByteBuf.get_zeros i

theorem witness_StepHasNextStateUnlessRefused :
    (nextInput (State.reset.setHost [.cycle ⟨true, true, 0x70000000, true⟩])).rst = true ∧
    (nextInput State.reset).rst = false ∧ (nextInput State.reset).cmd = none ∧
    (nextInput (State.reset.setHost [.present (.word 0x6FFFFFFF) false])).cmd = some (.word 0x6FFFFFFF) ∧
    (0x6FFFFFFF : Word).toNat < 7 * 2 ^ 28 ∧ 7 * 2 ^ 28 ≤ (0x70000000 : Word).toNat ∧
    (nextInput (State.reset.setHost [.present (.word 0x70000000) false])).cmd = some (.word 0x70000000) ∧
    (nextInput (State.reset.setHost [.present (.request ⟨0, 9, List.replicate 256 0⟩) false])).cmd =
      some (.request ⟨0, 9, List.replicate 256 0⟩) ∧
    (List.replicate 255 (0 : Byte)).length ≤ 255 ∧ 255 < (List.replicate 256 (0 : Byte)).length := by
  decide +kernel

theorem witness_NormalStepLeavesOtherRegisters :
    ∃ t, clock (onWord 0x0FFFFFFF true) State.reset = .next t ∧ presents (onWord 0x0FFFFFFF true) = some .nop ∧
      (State.reset.encBusy && true) = false := ⟨_, rfl, by decide, rfl⟩

/-- Two states that differ in the host's script, and so agree in each sub-unit. -/
theorem witness_SubUnitsShareNoState :
    ∃ t t', clock (onWord 0x30000055 true) State.reset = .next t ∧
      clock (onWord 0x30000055 true) (State.reset.setHost [.drain]) = .next t' ∧
      SameEncoder State.reset (State.reset.setHost [.drain]) ∧ SameDecoder State.reset (State.reset.setHost [.drain]) ∧
      State.reset.cuAcc = (State.reset.setHost [.drain]).cuAcc :=
  ⟨_, _, rfl, rfl, ⟨rfl, rfl, rfl, rfl, rfl, rfl, rfl, rfl⟩, ⟨rfl, rfl, rfl, rfl, rfl, rfl, rfl, rfl, rfl⟩, rfl⟩

/-- A stale entry just behind the bytes received. -/
theorem witness_StaleRxEntriesAreUnobservable :
    SameButStaleRx ((fed [0xFF]).setRxBuf 1 0) ((fed [0xFF]).setRxBuf 1 9) := by
  refine ⟨rfl, fun i hi => ?_⟩
  have h1 : i < 1 := lt_of_lt_of_le hi (Nat.min_le_left 1 259)
  obtain rfl : i = 0 := by omega
  rfl

theorem witness_StatusStaysUntilNextCommandOfItsKind :
    (∃ t, clock (onWord 0x500000FF true) lastByte = .next t ∧ presents (onWord 0x500000FF true) = some (.decByte 0xFF)) ∧
    ∃ t, clock { rst := false, cmd := some (.request ⟨1, 2, [0x41, 1]⟩), outReady := true } State.reset = .next t :=
  ⟨⟨_, rfl, by decide⟩, _, rfl⟩

theorem witness_RepeatedCommands :
    (∃ t, exec (.encLoad 255 0x2A) State.reset = .next t) ∧
    (∃ t u, exec .decEnd (fed [0xFF]) = .next t ∧ exec .decEnd t = .next u) ∧
    ((1 : Byte) ≠ 0) ∧ (State.reset.setRxCnt 259).rxCnt.toNat < 260 ∧
    (State.reset.encBusy = false ∧ (253 : Byte).toNat ≤ 253) :=
  ⟨⟨_, rfl⟩, ⟨_, _, rfl, rfl⟩, by decide, by decide, rfl, by decide⟩

theorem witness_ChecksumProperties :
    List.Perm [0x01, 0x02] [0x02, (0x01 : Byte)] ∧ (0x00 : Byte) ≠ 0x80 := by decide

theorem witness_NopChangesNothing : (0x0FFFFFFF : Word).toNat < 2 ^ 28 := by decide

theorem witness_CuClrClearsAccumulator : (0x1FFFFFFF : Word).toNat / 2 ^ 28 = 1 := by decide

theorem witness_CuAddAddsModulo256 : (0x2FFFFFFF : Word).toNat / 2 ^ 28 = 2 := by decide

/-- `CU_CLR`, then an add with an encoder command between. -/
theorem witness_ChecksumUnitComputesChecksum :
    (∀ inp ∈ [onWord 0x30000055 true, onWord 0x200000FF true], inp.rst = false ∧ presents inp ≠ some .cuClr) ∧
    presents (onWord 0x10000000 false) = some .cuClr ∧
    ∃ t, clockAll [onWord 0x10000000 false, onWord 0x30000055 true, onWord 0x200000FF true]
      (State.reset.setCuAcc 9) = .next t :=
  ⟨by decide, by decide, _, rfl⟩

theorem witness_BusyEncoderHoldsEncCommands :
    lastByte.encBusy = true ∧ (0x3FFFFFFF : Word).toNat / 2 ^ 28 = 3 ∧ (0x40000000 : Word).toNat / 2 ^ 28 = 4 ∧
    (0x50000000 : Word).toNat / 2 ^ 28 ≠ 3 ∧ (0x50000000 : Word).toNat / 2 ^ 28 ≠ 4 := by decide

theorem witness_EncLoadWritesOneEntry :
    State.reset.encBusy = false ∧ lastByte.encBusy = true ∧ (0x30000000 : Word).toNat / 2 ^ 28 = 3 ∧
    (0 : Nat) ≠ (255 : Byte).toNat := by decide

/-- Each outcome of the checks, at its ends, and a command that decodes to the start. -/
theorem witness_EncStartChecksThenStarts :
    State.reset.encBusy = false ∧ lastByte.encBusy = true ∧ (0x4FFFFFFF : Word).toNat / 2 ^ 28 = 4 ∧
    253 < (254 : Byte).toNat ∧ (253 : Byte).toNat ≤ 253 ∧
    decodeCommand (.word 0x40FDFFFD) = .instr (.encStart 253 0xFF 253) := by decide

/-- Each position's clause, up to the last byte of the largest frame. -/
theorem witness_FrameByteAtEachPosition :
    let at' (p : Count) : State := { lastByte with encNp := 253, encPos := p }
    (at' 0).encBusy = true ∧ (at' 1).encPos.toNat = 1 ∧ (at' 2).encPos.toNat = 2 ∧ (at' 3).encPos.toNat = 3 ∧
    (at' 4).encPos.toNat = 4 ∧ 5 ≤ (at' 5).encPos.toNat ∧ (at' 257).encPos.toNat ≤ (at' 257).encNp.toNat + 4 ∧
    (at' 258).encPos.toNat = (at' 258).encNp.toNat + 5 := by decide

theorem witness_HostTakesOfferedByte :
    lastByte.encBusy = true ∧ State.reset.encBusy = false ∧
    ∃ t, clock (onIdle true) lastByte = .next t := ⟨rfl, rfl, _, rfl⟩

theorem witness_EmissionStepAdvancesFrame :
    lastByte.encBusy = true ∧ ∃ t, clock (onWord 0x30000055 true) lastByte = .next t := ⟨rfl, _, rfl⟩

theorem witness_EncoderHoldsWithoutReady :
    lastByte.encBusy = true ∧ ∃ t, clock (onWord 0x60000000 false) lastByte = .next t := ⟨rfl, _, rfl⟩

theorem witness_FrameInFlightCannotChange :
    lastByte.encBusy = true ∧ ∃ t, clock (onWord 0x400203FF true) lastByte = .next t := ⟨rfl, _, rfl⟩

/-- An accepted start and its first two bytes, with the last step's byte taken. -/
theorem witness_EncoderEmitsBuiltFrame :
    loaded.encBusy = false ∧ decodeCommand (.word 0x40010300) = .instr (.encStart 1 3 0) ∧
    build 1 3 (loaded.pbufE.data.take 0) = .frame [0xFF, 0xFF, 0x01, 0x02, 0x03, 0xF9] ∧ (0 : Byte).toNat ≤ 253 ∧
    (∀ inp ∈ List.replicate 6 (onIdle true), inp.rst = false) ∧
    (List.replicate 6 (onIdle true)).countP (·.outReady) = (0 : Byte).toNat + 6 ∧
    (List.replicate 6 (onIdle true)).getLast?.map (·.outReady) = some true ∧
    ∃ t, clockAll (onWord 0x40010300 true :: List.replicate 6 (onIdle true)) loaded = .next t :=
  ⟨rfl, by decide, by decide +kernel, by decide, by decide, by decide, by decide, _, rfl⟩

theorem witness_StartStatusIsBuildOutcome :
    State.reset.encBusy = false ∧ (List.replicate 255 (0 : Byte)).length = (255 : Byte).toNat := by decide +kernel

theorem witness_DrainTakesWholeFrame :
    let s := loaded.setHost [.present (.word 0x40010305) true, .drain, .drain]
    s.encBusy = false ∧ decodeCommand (.word 0x40010305) = .instr (.encStart 1 3 5) ∧ (5 : Byte).toNat ≤ 253 ∧
    build 1 3 (s.pbufE.data.take 5) =
      .frame [0xFF, 0xFF, 0x01, 0x07, 0x03, 0x2A, 0x00, 0x08, 0xF4, 0x01, 0xCD] ∧
    s.host = .present (.word 0x40010305) true :: .drain :: [.drain] := by decide +kernel

theorem witness_NoReadyHangsEncoder :
    lastByte.encBusy = true ∧ (∀ inp ∈ [onWord 0x30000055 false, onIdle false], inp.rst = false ∧ inp.outReady = false) ∧
    (0x3FFFFFFF : Word).toNat / 2 ^ 28 = 3 ∧
    ∃ t, clockAll [onWord 0x30000055 false, onIdle false] lastByte = .next t := ⟨rfl, by decide, by decide, _, rfl⟩

/-- The last byte of a frame, then the same start twice. -/
theorem witness_ParameterBufferPersists :
    (∀ inp ∈ [onWord 0x200000FF true], inp.rst = false ∧ (∀ k b, presents inp ≠ some (.encLoad k b)) ∧
      ∀ q, inp.cmd = some (.request q) → q.params = []) ∧
    ∃ t s' t', clockAll [onWord 0x200000FF true] loaded = .next t ∧ loaded.encBusy = false ∧ t.encBusy = false ∧
      exec (.encStart 253 3 253) loaded = .next s' ∧ exec (.encStart 253 3 253) t = .next t' := by
  refine ⟨fun inp h => ?_, _, _, _, rfl, rfl, rfl, rfl, rfl⟩
  obtain rfl : inp = onWord 0x200000FF true := by simpa using h
  exact ⟨rfl, fun k b h => by simp [presents, onWord, decodeCommand, decodeWord, opField, Decoded.instr?] at h,
    fun q h => by simp [onWord] at h⟩

theorem witness_BuiltFrameShape :
    build 253 0 [0xFF] = .frame [0xFF, 0xFF, 0xFD, 0x03, 0x00, 0xFF, 0x00] ∧
    (build 0 0xFF (List.replicate 253 0xFF)).status = .accepted := by decide +kernel

theorem witness_BuildOutcomes :
    253 < (List.replicate 254 (0 : Byte)).length ∧ (List.replicate 253 (0 : Byte)).length ≤ 253 ∧
    253 < (254 : Byte).toNat ∧ (253 : Byte).toNat ≤ 253 := by decide +kernel

theorem witness_DecByteAppends :
    (State.reset.setRxCnt 258).rxCnt.toNat < 259 ∧ (State.reset.setRxCnt 259).rxCnt.toNat = 259 ∧
    (State.reset.setRxCnt 260).rxCnt.toNat = 260 ∧ (0x5FFFFFFF : Word).toNat / 2 ^ 28 = 5 := by decide

/-- Every code a `DEC_END` writes is written for some buffer. -/
theorem witness_DecEndWritesVerdictAndFields :
    after .decEnd (fed [0xFF, 0xFF, 0x01, 0x02, 0x00, 0xFC]) (·.decStatus.code) = some 1 ∧
    after .decEnd (fed [0xFF, 0xFF, 0x01, 0x02, 0x20, 0xDC]) (·.decStatus.code) = some 2 ∧
    after .decEnd (fed [0xFE, 0xFF, 0x01, 0x02, 0x00, 0xFC]) (·.decStatus.code) = some 3 ∧
    after .decEnd (fed [0xFF, 0xFF, 0x01, 0x02, 0x00]) (·.decStatus.code) = some 4 ∧
    after .decEnd (fed [0xFF, 0xFF, 0x03, 0x02, 0x00, 0xFC]) (·.decStatus.code) = some 5 ∧
    (0x6FFFFFFF : Word).toNat / 2 ^ 28 = 6 := by decide +kernel

theorem witness_ReceivedBytesAreHeld :
    ∃ t, Received State.reset [] ∧ clock (onWord 0x500000FF true) State.reset = .next t ∧
      presents (onWord 0x500000FF true) = some (.decByte 0xFF) ∧ presents (onWord 0x60000000 true) = some .decEnd :=
  ⟨_, ⟨rfl, fun i h => absurd h (Nat.not_lt_zero i)⟩, rfl, by decide, by decide⟩

theorem witness_DecEndEqualsParse :
    State.reset.rxCnt = 0 ∧
    (∀ inp ∈ [onWord 0x500000FF true, onWord 0x20000001 false], inp.rst = false ∧ presents inp ≠ some .decEnd) ∧
    ∃ t, clockAll [onWord 0x500000FF true, onWord 0x20000001 false] State.reset = .next t :=
  ⟨rfl, by decide, _, rfl⟩

theorem witness_DecFrameLeavesParse : State.reset.rxCnt = 0 := rfl

theorem witness_ParseFacts :
    (∃ f, parse [0xFF, 0xFF, 0x01, 0x02, 0x00, 0xFC] = .ok f) ∧
    (∃ f, parse [0xFF, 0xFF, 0x01, 0x02, 0x20, 0xDC] = .servoFault f) ∧
    (let B : List Byte := [0xFF, 0xFF, 0x01, 0x02, 0x00, 0xFC, 0x00]
     (byteAt B 3).toNat + 4 < B.length ∧ byteAt B 0 = 0xFF ∧ byteAt B 1 = 0xFF) ∧
    (let B : List Byte := [0xFF, 0xFF, 0x01, 0x01, 0x00, 0xFC]
     6 ≤ B.length ∧ (byteAt B 3).toNat ≤ 1 ∧ byteAt B 0 = 0xFF ∧ byteAt B 1 = 0xFF) :=
  ⟨⟨_, rfl⟩, ⟨_, rfl⟩, by decide, by decide⟩

/-- A valid buffer, its first and last byte and every place between with a verdict of its own, and both end bits. -/
theorem witness_SingleBitFlipIsDetected :
    let B : List Byte := [0xFF, 0xFF, 0x01, 0x04, 0x00, 0x00, 0x08, 0xF2]
    (∃ f, parse B = .ok f) ∧ (∀ i ∈ [0, 1, 2, 3, 4, 5, 6, 7], i < B.length) ∧ (∀ k ∈ [0, 7], k < 8) ∧
    parse (B.set 0 0xFE) = .framingError ∧ parse (B.set 1 0x7F) = .framingError ∧
    parse (B.set 2 0x00) = .checksumError ∧ parse (B.set 3 0x05) = .truncatedFrame ∧
    parse (B.set 4 0x80) = .checksumError ∧ parse (B.set 7 0xF3) = .checksumError :=
  ⟨⟨_, rfl⟩, by decide, by decide, by decide, by decide, by decide, by decide, by decide, by decide⟩

theorem witness_BuiltFrameLoopsBack :
    build 253 0 [] = .frame [0xFF, 0xFF, 0xFD, 0x02, 0x00, 0x00] ∧ (253 : Byte).toNat ≤ 253 := by
  decide +kernel

theorem witness_ParseDoesNotCheckId : (List.replicate 253 (0 : Byte)).length ≤ 253 := by decide +kernel

theorem witness_WrongBufferBoundsAreTruncated :
    (∃ f, parse [0xFF, 0xFF, 0x01, 0x02, 0x20, 0xDC] = .servoFault f) ∧ [(0 : Byte)] ≠ [] ∧
    5 < [0xFF, 0xFF, 0x01, 0x02, 0x20, (0xDC : Byte)].length := ⟨⟨_, rfl⟩, by decide, by decide⟩

theorem witness_FramePingStartsPing :
    State.reset.encBusy = false ∧ lastByte.encBusy = true ∧ (253 : Byte).toNat ≤ 253 ∧ 253 < (254 : Byte).toNat := by
  decide

theorem witness_FrameReadStartsRead :
    State.reset.encBusy = false ∧ lastByte.encBusy = true ∧ (253 : Byte).toNat ≤ 253 ∧ 253 < (254 : Byte).toNat ∧
    (State.reset.setHost [.present (.request ⟨1, 2, [0x41, 1]⟩) true, .drain]).host =
      .present (.request ⟨1, 2, [0x41, 1]⟩) true :: [.drain] := by decide

/-- No value byte, and the widest value at its greatest. -/
theorem witness_FrameWriteStartsWrite :
    State.reset.encBusy = false ∧ lastByte.encBusy = true ∧ (253 : Byte).toNat ≤ 253 ∧ 253 < (254 : Byte).toNat ∧
    (0 : Nat) < 256 ^ 0 ∧ 252 ≤ 252 ∧ 254 ≤ 254 ∧ 256 ^ 254 - 1 < 256 ^ 254 ∧ leBytes 0 0 = some [] ∧
    (State.reset.setHost [.present (.request ⟨1, 3, [0x28]⟩) false]).host =
      .present (.request ⟨1, 3, 0x28 :: []⟩) false :: [] := by decide +kernel

theorem witness_FrameWriteOutOfRange :
    256 ^ 1 ≤ 256 ∧ 0 < 256 ^ 255 ∧ 255 ≤ 255 ∧ State.reset.encBusy = false ∧
    leBytes 0 253 = some (List.replicate 253 0) ∧ leBytes 0 254 = some (List.replicate 254 0) ∧
    253 ≤ 253 ∧ 254 ≤ 254 ∧
    (State.reset.setHost [.present (.request ⟨1, 3, 0x28 :: List.replicate 254 0⟩) true]).host =
      .present (.request ⟨1, 3, 0x28 :: List.replicate 254 0⟩) true :: [] := by decide +kernel

theorem witness_RequestRunsItsLines :
    loaded.encBusy = false ∧ (Request.mk 1 9 (List.replicate 255 0)).params.length ≤ 255 := by decide +kernel

theorem witness_LittleEndianBytesAndValue : 65535 < 256 ^ 2 ∧ 256 ^ 2 ≤ 65536 := by decide

theorem witness_MultiTurnOffset :
    (0x7FFF : BitVec 16).toNat < 32768 ∧ 32768 ≤ (0x8000 : BitVec 16).toNat := by decide

theorem witness_ServoReadingFromResult :
    let s : State := { State.reset with decStatus := .servoFault, decNp := 4 }
    s.decStatus.code = 2 ∧ 0 + 2 ≤ s.decNp.toNat ∧ 2 + 2 ≤ s.decNp.toNat ∧
    ({ s with decStatus := .checksumError } : State).decStatus.code = 5 := by decide

theorem witness_AssemblerWords :
    (∃ t, step (lastByte.setHost [.present (.word 0x30000055) true]) = .next t) ∧
    (255 ≤ 255 ∧ ¬256 ≤ 255) := ⟨⟨_, rfl⟩, by decide⟩

theorem witness_ControlTableWrites :
    (253 : Byte).toNat ≤ 253 ∧ selectsMultiTurn 0 0 = true ∧ selectsMultiTurn 0 1 = false := by decide

end Sys2Proof.Tests
end

namespace Sys2Proof.Machine

/-! ## The outputs of the checksum_unit and of the packet_decoder -/

/-- Settles O59: `cu_chk` is the complement of `CU_ACC`; every other output here is a register under its own name. -/
theorem unitOutputs : Obligations.UnitOutputs := by
  intro s
  have hchk : s.outputs.cuChk.toNat = 255 - s.cuAcc.toNat := BitVec.toNat_not
  exact ⟨rfl, hchk, rfl, rfl, rfl, rfl, rfl, rfl, rfl, fun _ _ => rfl⟩

/-! ## The handshake of the packet_encoder -/

/-- The test on an opcode, as a number: the word's top four bits (30_encoding R60). -/
theorem opField_eq_iff (w : Word) (op : BitVec 4) : opField w = op ↔ w.toNat / 2 ^ 28 = op.toNat := by
  rw [← opField_toNat, BitVec.toNat_inj]

/-- `cmd_ready = 0` exactly for an encoder command while `ENC_BUSY = 1` (10_state R28). -/
theorem wordReady_eq_false_iff (s : State) (w : Word) :
    wordReady s w = false ↔ s.encBusy = true ∧ (w.toNat / 2 ^ 28 = 3 ∨ w.toNat / 2 ^ 28 = 4) := by
  have h3 : opField w = 3 ↔ w.toNat / 2 ^ 28 = 3 := opField_eq_iff w 3
  have h4 : opField w = 4 ↔ w.toNat / 2 ^ 28 = 4 := opField_eq_iff w 4
  rw [← h3, ← h4]
  simp [wordReady, or_iff_not_imp_left]

/-- A held command word leaves the state as it is (10_state R28). -/
theorem runCommand_word_of_not_ready {s : State} {w : Word} (h : wordReady s w = false) :
    runCommand s (.word w) = .next s := by
  obtain ⟨hb, hop⟩ := (wordReady_eq_false_iff s w).mp h
  rw [← opField_toNat] at hop
  rcases hop with hop | hop
  · have hd : decodeWord w = .instr (.encLoad (field1 w) (field0 w)) := by simp [decodeWord, hop]
    rw [runCommand_word hd]
    exact if_pos hb
  · have hd : decodeWord w = .instr (.encStart (field2 w) (field1 w) (field0 w)) := by simp [decodeWord, hop]
    rw [runCommand_word hd]
    exact if_pos hb

/-- The step of a command whose part of the step changes nothing is the step without a command (10_state R33). -/
theorem clock_of_runCommand_self {s : State} {c : Command} (h : runCommand s c = .next s) (r : Bool) :
    clock { rst := false, cmd := some c, outReady := r } s =
      clock { rst := false, cmd := none, outReady := r } s := by
  simp [clock, normalStep, h]

/-- Settles O25: a word is not ready exactly when it is an encoder command and a frame is in flight, and its command
part then changes nothing. -/
theorem busyEncoderHoldsEncCommands : Obligations.BusyEncoderHoldsEncCommands := by
  intro s w
  refine ⟨fun hop hb => ?_, fun h => ?_⟩
  · have hheld : wordReady s w = false := (wordReady_eq_false_iff s w).mpr ⟨hb, hop⟩
    exact ⟨hheld, clock_of_runCommand_self (runCommand_word_of_not_ready hheld)⟩
  · rw [← Bool.not_eq_false, wordReady_eq_false_iff]
    rintro ⟨hb, hop⟩
    rcases h with hne | hidle
    · omega
    · exact absurd hb (by simp [hidle])

/-! ## The output stream of the packet_encoder -/

/-- The position of the frame's last byte, as an equation between numbers (10_state R30). -/
theorem atLastByte_iff (s : State) : atLastByte s = true ↔ s.encPos.toNat = s.encNp.toNat + 5 := beq_iff_eq

/-- While a frame is in flight the byte offered is the frame byte at `ENC_POS` (10_state R30). -/
theorem outputs_encOutByte_of_busy {s : State} (hb : s.encBusy = true) : s.outputs.encOutByte = frameByte s :=
  if_pos hb

/-- While a frame is in flight `enc_out_last` marks the last position (10_state R30). -/
theorem outputs_encOutLast_of_busy {s : State} (hb : s.encBusy = true) : s.outputs.encOutLast = atLastByte s := by
  simp [State.outputs, hb]

/-- The emission part records the byte offered, with `enc_out_last`, when it is taken (10_state R30, R125). -/
theorem emission_taken (pre post : State) (r : Bool) :
    (emission pre r post).taken =
      if pre.encBusy = true ∧ r = true then
        post.taken ++ [⟨pre.outputs.encOutByte, pre.outputs.encOutLast⟩]
      else post.taken := by
  rcases emission_cases pre post r with ⟨hn, he⟩ | ⟨hb, hr, he⟩
  · rw [he, if_neg hn]
  · rw [if_pos (And.intro hb hr), outputs_encOutByte_of_busy hb, outputs_encOutLast_of_busy hb, he]

/-- A step records a byte in its emission part only: neither a reset nor a command takes one (10_state R30, R33,
70_reset_and_hazards R223). -/
theorem clock_taken {inp : StepInput} {s t : State} (h : clock inp s = .next t) :
    t.taken =
      if inp.rst = false ∧ s.encBusy = true ∧ inp.outReady = true then
        s.taken ++ [⟨s.outputs.encOutByte, s.outputs.encOutLast⟩]
      else s.taken := by
  rcases clock_cases h with ⟨hr, rfl⟩ | ⟨hr, _, rfl⟩ | ⟨hr, c, u, _, hrun, rfl⟩
  · simp [hr]
  · simp [hr, emission_taken]
  · simp [hr, emission_taken, runCommand_taken hrun]

/-- Settles O29: the outputs are read off the state, and only the emission part of a normal step records a byte. -/
theorem hostTakesOfferedByte : Obligations.HostTakesOfferedByte := by
  intro s
  have hlast : s.outputs.encOutLast = true ↔ s.encBusy = true ∧ s.encPos.toNat = s.encNp.toNat + 5 := by
    rw [← atLastByte_iff]
    exact Bool.and_eq_true_iff
  exact ⟨rfl, rfl, fun hidle => by simp [State.outputs, hidle], outputs_encOutByte_of_busy, hlast, rfl,
    fun _ _ => clock_taken⟩

end Sys2Proof.Machine

namespace Sys2Proof.Machine

/-! ## The encoding of command words -/

/-- The opcode as a 4-bit word, from the word as a number (30_encoding R60). -/
theorem opField_eq_ofNat (w : Word) : opField w = BitVec.ofNat 4 (w.toNat / 2 ^ 28) := by
  rw [← opField_toNat, BitVec.ofNat_toNat, BitVec.setWidth_eq]

/-- Opcodes 7 to 15 are reserved (30_encoding R66). -/
theorem decodeWord_reserved {w : Word} (h : 7 ≤ w.toNat / 2 ^ 28) :
    decodeWord w = .reject (.reservedOpcode (opField w)) := by
  rw [← opField_toNat] at h
  unfold decodeWord
  split
  case h_8 => rfl
  all_goals omega

/-- Settles O2: the decoder's match on the opcode, with its fields read as numbers. -/
theorem opcodeMapDecodes : Obligations.OpcodeMapDecodes := by
  intro w op b0 b1 b2
  have hop : (opField w).toNat = op := opField_toNat w
  have h0 : field0 w = b0 := field0_eq_ofNat w
  have h1 : field1 w = b1 := field1_eq_ofNat w
  have h2 : field2 w = b2 := field2_eq_ofNat w
  have hres : 7 ≤ op → decodeWord w = .reject (.reservedOpcode (BitVec.ofNat 4 op)) :=
    fun h => opField_eq_ofNat w ▸ decodeWord_reserved h
  refine ⟨?_, ?_, ?_, ?_, ?_, ?_, ?_, hres⟩ <;>
    · intro h
      simp only [decodeWord, hop, h, h0, h1, h2]

/-- A word that decodes to no instruction is refused (10_state R32, 30_encoding R66). -/
theorem runCommand_word_of_reject {w : Word} {e : Reject} (h : decodeWord w = .reject e) (s : State) :
    runCommand s (.word w) = .refused (.reservedOpcode (opField w)) := by
  simp only [runCommand, h]

/-- A refused command refuses the step; there is no emission on top of it (10_state R32). -/
theorem clock_of_runCommand_refused {s : State} {c : Command} {e : Refusal} (h : runCommand s c = .refused e)
    (r : Bool) : clock { rst := false, cmd := some c, outReady := r } s = .refused e := by
  simp [clock, normalStep, h, withEmission]

/-- Settles O8: a reserved word does not decode, so its command part is a refusal; a reset does not look at it. -/
theorem reservedOpcodeIsRefused : Obligations.ReservedOpcodeIsRefused := by
  intro s w r hop
  have hrun := runCommand_word_of_reject (decodeWord_reserved hop) s
  rw [opField_eq_ofNat] at hrun
  exact ⟨clock_of_runCommand_refused hrun r, rfl⟩

/-! ## Ignored bits -/

/-- A format uses the opcode's bits, whatever the opcode (30_encoding R60). -/
theorem opField_usedMask (op : BitVec 4) : opField (usedMask op) = BitVec.allOnes 4 := by
  revert op
  decide

/-- Formats B, L and S use the low byte (30_encoding R62 to R64). -/
theorem field0_usedMask {op : BitVec 4} (h : 2 ≤ op.toNat ∧ op.toNat ≤ 5) :
    field0 (usedMask op) = BitVec.allOnes 8 := by
  revert op
  decide

/-- Formats L and S use the second byte (30_encoding R63, R64). -/
theorem field1_usedMask {op : BitVec 4} (h : op.toNat = 3 ∨ op.toNat = 4) :
    field1 (usedMask op) = BitVec.allOnes 8 := by
  revert op
  decide

/-- Format S uses the third byte (30_encoding R64). -/
theorem field2_usedMask {op : BitVec 4} (h : op.toNat = 4) : field2 (usedMask op) = BitVec.allOnes 8 := by
  revert op
  decide

/-- A mask whose bits are all 1 in a field leaves that field as it is. -/
theorem extractLsb'_and_of_allOnes {start len : Nat} (w : Word) {m : Word}
    (hm : m.extractLsb' start len = BitVec.allOnes len) :
    (w &&& m).extractLsb' start len = w.extractLsb' start len := by
  rw [BitVec.extractLsb'_and, hm, BitVec.and_allOnes]

theorem opField_and_usedMask (w : Word) (op : BitVec 4) : opField (w &&& usedMask op) = opField w :=
  extractLsb'_and_of_allOnes w (opField_usedMask op)

theorem field0_and_usedMask (w : Word) {op : BitVec 4} (h : 2 ≤ op.toNat ∧ op.toNat ≤ 5) :
    field0 (w &&& usedMask op) = field0 w := extractLsb'_and_of_allOnes w (field0_usedMask h)

theorem field1_and_usedMask (w : Word) {op : BitVec 4} (h : op.toNat = 3 ∨ op.toNat = 4) :
    field1 (w &&& usedMask op) = field1 w := extractLsb'_and_of_allOnes w (field1_usedMask h)

theorem field2_and_usedMask (w : Word) {op : BitVec 4} (h : op.toNat = 4) :
    field2 (w &&& usedMask op) = field2 w := extractLsb'_and_of_allOnes w (field2_usedMask h)

/-- The decoder does not read the bits that a word's format ignores (30_encoding R67). -/
theorem decodeWord_and_usedMask (w : Word) : decodeWord (w &&& usedMask (opField w)) = decodeWord w := by
  unfold decodeWord
  rw [opField_and_usedMask]
  split
  case h_3 h => rw [field0_and_usedMask w (by omega)]
  case h_4 h => rw [field1_and_usedMask w (Or.inl h), field0_and_usedMask w (by omega)]
  case h_5 h =>
    rw [field2_and_usedMask w h, field1_and_usedMask w (Or.inr h), field0_and_usedMask w (by omega)]
  case h_6 h => rw [field0_and_usedMask w (by omega)]
  all_goals rfl

/-- Words with the same used bits have the same opcode and decode alike (30_encoding R67). -/
theorem decodeWord_congr_used {w v : Word} (h : w &&& usedMask (opField w) = v &&& usedMask (opField w)) :
    opField w = opField v ∧ decodeWord w = decodeWord v := by
  have hop : opField w = opField v := by
    rw [← opField_and_usedMask w (opField w), h, opField_and_usedMask]
  refine ⟨hop, ?_⟩
  calc decodeWord w
    _ = decodeWord (w &&& usedMask (opField w)) := (decodeWord_and_usedMask w).symm
    _ = decodeWord (v &&& usedMask (opField v)) := by rw [h, hop]
    _ = decodeWord v := decodeWord_and_usedMask v

/-- What a command word does is fixed by its opcode and by what it decodes to. -/
theorem runCommand_word_congr {w v : Word} (hop : opField w = opField v) (hd : decodeWord w = decodeWord v)
    (s : State) : runCommand s (.word w) = runCommand s (.word v) := by
  simp only [runCommand, hop, hd]

/-- A step depends on the command presented only through its part of the step (10_state R33). -/
theorem clock_congr_runCommand {s : State} {c d : Command} (h : runCommand s c = runCommand s d) (r : Bool) :
    clock { rst := false, cmd := some c, outReady := r } s =
      clock { rst := false, cmd := some d, outReady := r } s := by
  simp only [clock, normalStep, h]

/-- The bits of a packed word: three bytes, four zeros, the opcode (30_encoding R60 to R64). -/
theorem getLsbD_packWord (op : BitVec 4) (f2 f1 f0 : Byte) {k : Nat} (hk : k < 32) :
    (packWord op f2 f1 f0).getLsbD k =
      if k < 8 then f0.getLsbD k else if k < 16 then f1.getLsbD (k - 8)
      else if k < 24 then f2.getLsbD (k - 16) else if k < 28 then false else op.getLsbD (k - 28) := by
  simp only [packWord, BitVec.getLsbD_or, BitVec.getLsbD_shiftLeft, BitVec.getLsbD_setWidth]
  interval_cases k <;> simp

/-- A mask acts on a packed word field by field. -/
theorem packWord_and (op : BitVec 4) (f2 f1 f0 : Byte) (m : Word) :
    packWord op f2 f1 f0 &&& m =
      packWord (op &&& opField m) (f2 &&& field2 m) (f1 &&& field1 m) (f0 &&& field0 m) := by
  refine BitVec.eq_of_getLsbD_eq fun k hk => ?_
  rw [BitVec.getLsbD_and, getLsbD_packWord _ _ _ _ hk, getLsbD_packWord _ _ _ _ hk]
  simp only [opField, field0, field1, field2, BitVec.getLsbD_and, BitVec.getLsbD_extractLsb']
  split_ifs <;> grind

/-- The encoder leaves the ignored bits 0 (30_encoding R67). -/
theorem encodeWord_and_usedMask {i : Instr} {w : Word} (h : encodeWord i = some w) :
    w &&& usedMask (opField w) = w := by
  have hff (b : Byte) : b &&& 255#8 = b := BitVec.and_allOnes
  cases i with
  | nop | cuClr | decEnd => cases h; simp [packWord_and, opField_usedMask]
  | cuAdd _ | decByte _ => cases h; simp [packWord_and, opField_usedMask, field0_usedMask, hff]
  | encLoad _ _ => cases h; simp [packWord_and, opField_usedMask, field0_usedMask, field1_usedMask, hff]
  | encStart _ _ _ =>
    cases h
    simp [packWord_and, opField_usedMask, field0_usedMask, field1_usedMask, field2_usedMask, hff]
  | framePing _ | frameRead _ _ _ | frameWrite _ _ _ _ => cases h

/-- The assembler writes an instruction's encoding (30_encoding R73). -/
theorem assemble_encodes {l : AsmLine} {w : Word} (h : assemble l = some w) : ∃ i, encodeWord i = some w := by
  cases l with
  | nop => exact ⟨.nop, h⟩
  | cuClr => exact ⟨.cuClr, h⟩
  | cuAdd b =>
    obtain ⟨x, -, rfl⟩ := Option.map_eq_some_iff.mp h
    exact ⟨.cuAdd x, by simp [encodeWord, packWord]⟩
  | encLoad k b =>
    simp only [assemble] at h
    split at h
    · next x y _ _ =>
      cases h
      exact ⟨.encLoad x y, by simp [encodeWord, packWord]⟩
    · cases h
  | encStart id cmd np =>
    simp only [assemble] at h
    split at h
    · next x y z _ _ _ =>
      cases h
      exact ⟨.encStart x y z, by simp [encodeWord, packWord]⟩
    · cases h
  | decByte b =>
    obtain ⟨x, -, rfl⟩ := Option.map_eq_some_iff.mp h
    exact ⟨.decByte x, by simp [encodeWord, packWord]⟩
  | decEnd => exact ⟨.decEnd, h⟩

/-- A word decodes exactly when its opcode is below 7 (30_encoding R65, R66). -/
theorem decodeWord_instr_iff (w : Word) : (∃ i, decodeWord w = .instr i) ↔ w.toNat < 7 * 2 ^ 28 := by
  constructor
  · rintro ⟨i, hi⟩
    by_contra hge
    rw [decodeWord_reserved (by omega)] at hi
    cases hi
  · intro hlt
    have hop : (opField w).toNat < 7 := by rw [opField_toNat]; omega
    unfold decodeWord
    split
    case h_8 => grind
    all_goals exact ⟨_, rfl⟩

/-- Settles O3: masking a word with its used bits changes neither its opcode nor what it decodes to, an assembled word
is an encoded one, and only the opcode reserves a word. -/
theorem ignoredBitsHaveNoEffect : Obligations.IgnoredBitsHaveNoEffect := by
  refine ⟨fun w v h s r => ?_, fun l w h => ?_, decodeWord_instr_iff⟩
  · obtain ⟨hop, hd⟩ := decodeWord_congr_used h
    exact ⟨clock_congr_runCommand (runCommand_word_congr hop hd s) r, by simp only [wordReady, hop]⟩
  · obtain ⟨i, hi⟩ := assemble_encodes h
    exact encodeWord_and_usedMask hi

end Sys2Proof.Machine

namespace Sys2Proof.Machine

/-! ## The checksum as a function of the wrapping sum -/

@[simp] theorem byteSum8_singleton (b : Byte) : byteSum8 [b] = b := (byteSum8_concat [] b).trans (zero_add b)

@[simp] theorem checksum_nil : checksum [] = 0xFF := rfl

/-- The wrapping sum is the fold of the 8-bit addition (40_checksum_unit R101). -/
theorem foldl_add_eq_byteSum8 (B : List Byte) : B.foldl (· + ·) 0x00 = byteSum8 B := by
  induction B using List.reverseRecOn with
  | nil => rfl
  | append_singleton A b ih => rw [List.foldl_concat, ih, byteSum8_concat]

/-- The checksum as a number (40_checksum_unit R101). -/
theorem checksum_toNat (B : List Byte) : (checksum B).toNat = 255 - byteSum B % 256 := by
  rw [checksum_eq_not_sum8, BitVec.toNat_not, byteSum8_toNat]

/-- The checksum tells wrapping sums apart, and nothing else of the bytes (40_checksum_unit R102). -/
theorem checksum_eq_iff (A B : List Byte) : checksum A = checksum B ↔ byteSum8 A = byteSum8 B := by
  rw [checksum_eq_not_sum8, checksum_eq_not_sum8, BitVec.not_inj]

/-- The order of the bytes does not matter to their sum (40_checksum_unit R102, item 3). -/
theorem byteSum8_perm {A B : List Byte} (h : A.Perm B) : byteSum8 A = byteSum8 B :=
  congrArg (BitVec.ofNat 8) (h.map BitVec.toNat).sum_nat

/-- Two lists that differ in one byte have the same sum only when that byte is the same (40_checksum_unit R102,
item 5). -/
theorem byteSum8_replace_eq_iff (A B : List Byte) (b b' : Byte) :
    byteSum8 (A ++ [b] ++ B) = byteSum8 (A ++ [b'] ++ B) ↔ b = b' := by
  simp only [byteSum8_append, byteSum8_singleton, BitVec.add_left_inj, BitVec.add_right_inj]

/-- A list with its checksum appended has checksum 0 (40_checksum_unit R102, item 4). -/
theorem checksum_concat_checksum (B : List Byte) : checksum (B ++ [checksum B]) = 0x00 := by
  calc checksum (B ++ [checksum B])
    _ = ~~~(byteSum8 B + ~~~byteSum8 B) := by rw [checksum_eq_not_sum8, byteSum8_concat, checksum_eq_not_sum8]
    _ = ~~~BitVec.allOnes 8 := by rw [BitVec.add_not_self]
    _ = 0x00 := BitVec.not_allOnes

/-! ## The commands of the checksum_unit -/

@[simp] theorem State.setCuAcc_self (s : State) : s.setCuAcc s.cuAcc = s := rfl

@[simp] theorem State.setCuAcc_setCuAcc (s : State) (v w : Byte) : (s.setCuAcc v).setCuAcc w = s.setCuAcc w := rfl

/-- A run of `CU_ADD`s adds the wrapping sum of its bytes (40_checksum_unit R105). -/
theorem execAll_cuAdd (B : List Byte) (s : State) :
    execAll (B.map .cuAdd) s = .next (s.setCuAcc (s.cuAcc + byteSum8 B)) := by
  induction B generalizing s with
  | nil => simp [execAll]
  | cons b B ih =>
    have hcons : execAll (Instr.cuAdd b :: B.map .cuAdd) s =
        execAll (B.map .cuAdd) (s.setCuAcc (s.cuAcc + b)) := rfl
    rw [List.map_cons, hcons, ih, State.setCuAcc_setCuAcc, State.setCuAcc_cuAcc, byteSum8_cons, BitVec.add_assoc]

/-- 256 times one byte is 0 modulo 256 (40_checksum_unit R105). -/
theorem byteSum8_replicate_256 (b : Byte) : byteSum8 (List.replicate 256 b) = 0 := by
  refine BitVec.eq_of_toNat_eq ?_
  rw [byteSum8_toNat, byteSum, List.map_replicate, List.sum_replicate_nat]
  exact Nat.mul_mod_right 256 b.toNat

/-- The output `cu_chk` is the checksum of any bytes whose wrapping sum `CU_ACC` holds (10_state R29). -/
theorem outputs_cuChk_eq_checksum_iff (s : State) (B : List Byte) :
    s.outputs.cuChk = checksum B ↔ s.cuAcc = byteSum8 B := by
  rw [checksum_eq_not_sum8]
  exact BitVec.not_inj

/-! ## The accumulator along a run -/

theorem clockAll_cons_next {inp : StepInput} {inps : List StepInput} {s t : State}
    (h : clockAll (inp :: inps) s = .next t) : ∃ u, clock inp s = .next u ∧ clockAll inps u = .next t := by
  unfold clockAll at h
  split at h
  · next u hu => exact ⟨u, hu, h⟩
  · cases h
  · cases h

theorem cuAdds_cons (inp : StepInput) (inps : List StepInput) :
    cuAdds (inp :: inps) = cuAdds [inp] ++ cuAdds inps :=
  List.filterMap_append (l := [inp])

/-- A step that is no reset and presents no `CU_CLR` adds to `CU_ACC` the byte of the `CU_ADD` it presents, if it
presents one (40_checksum_unit R105, 10_state R34). -/
theorem clock_cuAcc_add {inp : StepInput} {s t : State} (hr : inp.rst = false) (hc : presents inp ≠ some .cuClr)
    (h : clock inp s = .next t) : t.cuAcc = s.cuAcc + byteSum8 (cuAdds [inp]) := by
  rw [clock_cuAcc hr h]
  cases hp : presents inp with
  | none => simp [cuAdds, hp]
  | some i =>
    cases i with
    | cuClr => exact absurd hp hc
    | cuAdd b => simp [cuAdds, hp]
    | _ => simp [cuAdds, hp]

/-- A step that presents a `CU_CLR` leaves `CU_ACC` at 0 (40_checksum_unit R104). -/
theorem clock_cuAcc_clr {inp : StepInput} {s t : State} (hp : presents inp = some .cuClr)
    (h : clock inp s = .next t) : t.cuAcc = 0 := by
  have hr : inp.rst = false := by
    by_contra hrst
    simp [presents, hrst] at hp
  simpa [hp] using clock_cuAcc hr h

/-- Over steps without a reset or a `CU_CLR`, `CU_ACC` advances by the wrapping sum of the bytes added, whatever else
the steps do (40_checksum_unit R106). -/
theorem clockAll_cuAcc {inps : List StepInput} {s t : State}
    (hin : ∀ inp ∈ inps, inp.rst = false ∧ presents inp ≠ some .cuClr) (h : clockAll inps s = .next t) :
    t.cuAcc = s.cuAcc + byteSum8 (cuAdds inps) := by
  induction inps generalizing s with
  | nil => cases h; simp [cuAdds]
  | cons inp inps ih =>
    obtain ⟨u, hu, ht⟩ := clockAll_cons_next h
    obtain ⟨⟨hr, hc⟩, hrest⟩ := List.forall_mem_cons.mp hin
    rw [ih hrest ht, clock_cuAcc_add hr hc hu, cuAdds_cons inp inps, byteSum8_append, BitVec.add_assoc]

/-! ## The obligations -/

/-- Settles O23: the leading `CU_CLR` empties the accumulator, and the other steps add the bytes of their `CU_ADD`s to
what it holds. -/
theorem checksumUnitComputesChecksum : Obligations.ChecksumUnitComputesChecksum := by
  intro inps s t hin
  refine ⟨fun first hclr h => ?_, fun h => ?_⟩
  · obtain ⟨u, hu, ht⟩ := clockAll_cons_next h
    have hacc : t.cuAcc = byteSum8 (cuAdds inps) := by
      rw [clockAll_cuAcc hin ht, clock_cuAcc_clr hclr hu, zero_add]
    exact ⟨(congrArg BitVec.toNat hacc).trans (byteSum8_toNat _), (outputs_cuChk_eq_checksum_iff t _).mpr hacc⟩
  · have hacc := clockAll_cuAcc hin h
    refine ⟨congrArg (~~~·) hacc, ?_⟩
    rw [outputs_cuChk_eq_checksum_iff, hacc]
    exact BitVec.add_left_eq_self

/-- Settles O18: the fold is the wrapping sum, and the NOT of a byte is 255 minus it. -/
theorem checksumIsNotOfWrappingSum : Obligations.ChecksumIsNotOfWrappingSum := by
  intro B
  exact ⟨by rw [foldl_add_eq_byteSum8, checksum_eq_not_sum8], checksum_toNat B⟩

/-- Settles O19: a checksum depends on the wrapping sum alone and determines it. -/
theorem checksumProperties : Obligations.ChecksumProperties := by
  refine ⟨checksum_nil, ⟨fun A B h => congrArg checksum h, by decide⟩, fun A B h => ?_, fun B => ?_,
    fun A B b b' hne => ?_, by decide⟩
  · exact (checksum_eq_iff A B).mpr (byteSum8_perm h)
  · have hchk := checksum_toNat B
    unfold byteSum at hchk
    exact ⟨checksum_concat_checksum B, by omega⟩
  · rw [Ne, checksum_eq_iff, byteSum8_replace_eq_iff]
    exact hne

/-- Settles O22: the arm of `CU_ADD` adds in 8 bits, so a run of 256 of them adds a multiple of 256. -/
theorem cuAddAddsModulo256 : Obligations.CuAddAddsModulo256 := by
  refine ⟨fun w => ?_, fun s b => ?_, fun s b => ?_⟩
  · obtain ⟨-, -, hadd, -⟩ := opcodeMapDecodes w
    exact hadd
  · exact ⟨s.setCuAcc (s.cuAcc + b), rfl, rfl, BitVec.toNat_add s.cuAcc b⟩
  · rw [← List.map_replicate, execAll_cuAdd, byteSum8_replicate_256, add_zero, State.setCuAcc_self]

/-- Settles O20: a word of opcode 0 decodes to `NOP`, whose part of the step changes nothing. -/
theorem nopChangesNothing : Obligations.NopChangesNothing := by
  intro s
  refine ⟨rfl, fun w r hw => ?_⟩
  obtain ⟨hnop, -⟩ := opcodeMapDecodes w
  exact clock_of_runCommand_self (runCommand_word (hnop (Nat.div_eq_of_lt hw)) s) r

/-- Settles O21: `CU_CLR` leaves the wrapping sum of no bytes in `CU_ACC`. -/
theorem cuClrClearsAccumulator : Obligations.CuClrClearsAccumulator := by
  refine ⟨fun w => ?_, fun s => ?_⟩
  · obtain ⟨-, hclr, -⟩ := opcodeMapDecodes w
    exact hclr
  · have hchk : (s.setCuAcc 0x00).outputs.cuChk = checksum [] :=
      (outputs_cuChk_eq_checksum_iff _ []).mpr byteSum8_nil.symm
    exact ⟨s.setCuAcc 0x00, rfl, rfl, hchk.trans checksum_nil, hchk⟩

end Sys2Proof.Machine

namespace Sys2Proof.Machine

/-! ## The commands of the packet_encoder -/

/-- A command that decodes runs its instruction, whether it is a word or a request (10_state R33). -/
theorem runCommand_of_decode {c : Command} {i : Instr} (h : decodeCommand c = .instr i) (s : State) :
    runCommand s c = exec i s := by
  cases c with
  | word w => exact runCommand_word h s
  | request q =>
    have hq : decodeRequest q = .instr i := h
    simp only [runCommand, hq]

/-- An accepted `ENC_LOAD` (41_packet_encoder R123). -/
theorem exec_encLoad_of_idle {s : State} (hb : s.encBusy = false) (k b : Byte) :
    exec (.encLoad k b) s = .next (s.setPbufE k.toNat b) := by
  simp [exec, execEncLoad, hb]

/-- An accepted `ENC_START` (41_packet_encoder R124). -/
theorem exec_encStart_of_idle {s : State} (hb : s.encBusy = false) (id cmd np : Byte) :
    exec (.encStart id cmd np) s = .next (startFrame s id cmd np) := by
  simp [exec, execEncStart, hb]

/-! ## The frame byte at each position -/

section
variable {s : State}

theorem frameByte_header (h : s.encPos.toNat = 0 ∨ s.encPos.toNat = 1) : frameByte s = 0xFF := if_pos h

theorem frameByte_id (h : s.encPos.toNat = 2) : frameByte s = s.encId := by
  simp [frameByte, h]

theorem frameByte_length (h : s.encPos.toNat = 3) : frameByte s = s.encNp + 2 := by
  simp [frameByte, h]

theorem frameByte_cmd (h : s.encPos.toNat = 4) : frameByte s = s.encCmd := by
  simp [frameByte, h]

theorem frameByte_param (h5 : 5 ≤ s.encPos.toNat) (hn : s.encPos.toNat ≤ s.encNp.toNat + 4) :
    frameByte s = s.pbufE.get (s.encPos.toNat - 5) := by
  have h01 : ¬(s.encPos.toNat = 0 ∨ s.encPos.toNat = 1) := by omega
  have h2 : s.encPos.toNat ≠ 2 := by omega
  have h3 : s.encPos.toNat ≠ 3 := by omega
  have h4 : s.encPos.toNat ≠ 4 := by omega
  simp only [frameByte, if_neg h01, if_neg h2, if_neg h3, if_neg h4, if_pos (And.intro h5 hn)]

theorem frameByte_checksum (h : s.encPos.toNat = s.encNp.toNat + 5) : frameByte s = ~~~s.encAcc := by
  simp [frameByte, h]

end

/-- Settles O28: a busy encoder offers the frame byte, which is read off position by position. -/
theorem frameByteAtEachPosition : Obligations.FrameByteAtEachPosition := by
  intro s hb p n offered
  have hoff : offered = frameByte s := outputs_encOutByte_of_busy hb
  rw [hoff]
  refine ⟨frameByte_header, frameByte_id, fun h3 => ?_, frameByte_cmd, frameByte_param, frameByte_checksum⟩
  rw [frameByte_length h3]
  exact BitVec.toNat_add s.encNp 2

/-- Settles O26: a word of opcode 3 is an `ENC_LOAD`; accepted, it is one write into the buffer, at an index the
buffer has. -/
theorem encLoadWritesOneEntry : Obligations.EncLoadWritesOneEntry := by
  refine ⟨fun w => ?_, fun s k b => ⟨fun hb => ?_, fun hb => if_pos hb⟩⟩
  · obtain ⟨-, -, -, hload, -⟩ := opcodeMapDecodes w
    exact hload
  · exact ⟨s.setPbufE k.toNat b, exec_encLoad_of_idle hb k b, rfl, ByteBuf.get_set_self _ b k.isLt,
      fun _ hj => ByteBuf.get_set_of_ne _ b hj⟩

/-- Settles O27: a word of opcode 4 is an `ENC_START`; accepted, it ends in one of the three ways of a start, and an
idle encoder emits nothing in that step. -/
theorem encStartChecksThenStarts : Obligations.EncStartChecksThenStarts := by
  refine ⟨fun w => ?_, fun s id cmd np => ⟨fun hb => ?_, fun hb => if_pos hb⟩⟩
  · obtain ⟨-, -, -, -, hstart, -⟩ := opcodeMapDecodes w
    exact hstart
  · have hexec := exec_encStart_of_idle hb id cmd np
    have hclock : ∀ (c : Command) (r : Bool), decodeCommand c = .instr (.encStart id cmd np) →
        clock { rst := false, cmd := some c, outReady := r } s = .next (startFrame s id cmd np) :=
      fun c r hd => (clock_idle hb).trans ((runCommand_of_decode hd s).trans hexec)
    rcases startFrame_cases s id cmd np with ⟨hnp, he⟩ | ⟨hnp, hid, he⟩ | ⟨hnp, hid, he⟩ <;> rw [he] at hexec hclock
    · exact ⟨_, hexec, fun _ => ⟨rfl, rfl⟩, fun h => absurd h (by omega), fun h => absurd h (by omega), hclock⟩
    · exact ⟨_, hexec, fun h => absurd h (by omega), fun _ _ => ⟨rfl, rfl⟩, fun _ h => absurd h (by omega), hclock⟩
    · exact ⟨_, hexec, fun h => absurd h (by omega), fun _ h => absurd h (by omega), fun _ _ => ⟨rfl, rfl, rfl⟩, hclock⟩

/-! ## The emission part while a frame is in flight -/

/-- Without `out_ready` the emission part changes nothing (41_packet_encoder R126). -/
theorem emission_not_ready (pre post : State) : emission pre false post = post := by
  simp [emission]

/-- The byte offered is a function of the encoder's registers (10_state R30, 41_packet_encoder R122). -/
theorem outputs_encOutByte_congr {s t : State} (h : SameEncoder s t) :
    t.outputs.encOutByte = s.outputs.encOutByte := by
  obtain ⟨hbusy, hpos, hid, hcmd, hnp, hacc, -, hbuf⟩ := h
  simp only [State.outputs, frameByte, hbusy, hpos, hid, hcmd, hnp, hacc, hbuf]

/-- Settles O30: a command leaves a busy encoder alone, so the step does to it what the emission part does. -/
theorem emissionStepAdvancesFrame : Obligations.EmissionStepAdvancesFrame := by
  intro s hb
  rw [outputs_encOutByte_of_busy hb, outputs_encOutLast_of_busy hb]
  refine ⟨fun inp t hr ho h => ?_, atLastByte_iff s, ⟨emission s true s, rfl, emission_frame s s true⟩⟩
  obtain ⟨u, ⟨hbusy, -, hid, hcmd, hnp, hacc, hst, hbuf⟩, ⟨-, htaken⟩, rfl⟩ := clock_of_busy hb hr h
  rcases emission_cases s u inp.outReady with ⟨hn, -⟩ | ⟨-, -, he⟩
  · exact absurd ⟨hb, ho⟩ hn
  · rw [he]
    simp only [atLastByte_iff, ← hbusy, hb, ← hacc, ← hid, ← hcmd, ← hnp, ← hst, ← hbuf, ← htaken, and_self]

/-- Settles O31: neither a command nor the emission part writes a busy encoder when `out_ready = 0`. -/
theorem encoderHoldsWithoutReady : Obligations.EncoderHoldsWithoutReady := by
  intro inp s t hb hr ho h
  obtain ⟨u, henc, ⟨-, htaken⟩, ht⟩ := clock_of_busy hb hr h
  rw [ho, emission_not_ready] at ht
  subst ht
  exact ⟨henc, outputs_encOutByte_congr henc, htaken.symm⟩

/-! ## Built frames -/

/-- Settles O38: the frame is read off byte by byte, and its last byte makes the checksum of what it covers 0. -/
theorem builtFrameShape : Obligations.BuiltFrameShape := by
  intro id cmd P F hbuild np
  obtain ⟨hnp, -, rfl⟩ := build_eq_frame_iff.mp hbuild
  obtain ⟨h0, h1, h2, h3, h4, hparams, hchk⟩ := byteAt_frameOf id cmd P
  have hlen : (frameOf (frameBody id cmd P)).length = np + 6 := by simp [np]
  have hlength : (byteAt (frameOf (frameBody id cmd P)) 3).toNat = np + 2 := by
    rw [h3, BitVec.toNat_ofNat]
    exact Nat.mod_eq_of_lt (by omega)
  have hbody : slice (frameOf (frameBody id cmd P)) 2 (np + 4) = frameBody id cmd P := slice_frameOf id cmd P
  have hzero : checksum (slice (frameOf (frameBody id cmd P)) 2 (np + 5)) = 0x00 := by
    rw [slice_succ (by omega) (by omega), hbody, hchk, checksum_concat_checksum]
  exact ⟨hlen, by omega, by omega, hlength, by omega, by omega, h0, h1, h2, h4, hparams, hbody.symm ▸ hchk, hzero⟩

/-- Settles O39: `build` tests the count, then the ID; the worked frame is evaluated. -/
theorem buildOutcomes : Obligations.BuildOutcomes := by
  refine ⟨fun id cmd P => ⟨fun hnp => if_pos hnp, fun hnp hid => ?_, fun hnp hid => ?_⟩, ?_⟩
  · exact (if_neg (Nat.not_lt.mpr hnp)).trans (if_pos hid)
  · exact build_eq_frame_iff.mpr ⟨hnp, hid, rfl⟩
  · exact build_eq_frame_iff.mpr ⟨by decide, by decide, by decide⟩

end Sys2Proof.Machine

namespace Sys2Proof.Machine

/-! ## What `parse` answers, verdict by verdict -/

theorem not_bad_preamble {B : List Byte} (h0 : byteAt B 0 = 0xFF) (h1 : byteAt B 1 = 0xFF) :
    ¬(byteAt B 0 ≠ 0xFF ∨ byteAt B 1 ≠ 0xFF) := by
  simp [h0, h1]

section
variable {B : List Byte} (h6 : 6 ≤ B.length)
include h6

/-- After the size the header bytes are tested (42_packet_decoder R150). -/
theorem parse_of_bad_preamble (h : byteAt B 0 ≠ 0xFF ∨ byteAt B 1 ≠ 0xFF) : parse B = .framingError :=
  (if_neg (Nat.not_lt.mpr h6)).trans (if_pos h)

variable (h0 : byteAt B 0 = 0xFF) (h1 : byteAt B 1 = 0xFF)
include h0 h1

/-- Behind a good header the exact count is tested next (42_packet_decoder R150). -/
theorem parse_of_wrong_length (h : B.length ≠ (byteAt B 3).toNat + 4) : parse B = .truncatedFrame :=
  (if_neg (Nat.not_lt.mpr h6)).trans ((if_neg (not_bad_preamble h0 h1)).trans (if_pos h))

variable (hlen : B.length = (byteAt B 3).toNat + 4)
include hlen

/-- Behind the exact count the checksum is tested next (42_packet_decoder R150). -/
theorem parse_of_wrong_checksum (h : byteAt B (B.length - 1) ≠ checksum (slice B 2 (B.length - 2))) :
    parse B = .checksumError :=
  (if_neg (Nat.not_lt.mpr h6)).trans ((if_neg (not_bad_preamble h0 h1)).trans
    ((if_neg (not_not.mpr hlen)).trans (if_pos h)))

/-- Behind all four checks byte 4 tells the two verdicts with fields apart (42_packet_decoder R150). -/
theorem parse_of_valid (hchk : byteAt B (B.length - 1) = checksum (slice B 2 (B.length - 2))) :
    parse B = if byteAt B 4 = 0 then .ok (fieldsOf B) else .servoFault (fieldsOf B) :=
  (if_neg (Nat.not_lt.mpr h6)).trans ((if_neg (not_bad_preamble h0 h1)).trans
    ((if_neg (not_not.mpr hlen)).trans ((if_neg (not_not.mpr hchk)).trans (ite_not ..))))

end

/-! ## The buffer of received bytes -/

/-- Nothing is read beyond the last byte (42_packet_decoder R151). -/
theorem byteAt_of_length_le {B : List Byte} {i : Nat} (h : B.length ≤ i) : byteAt B i = 0 := by
  simp [byteAt, List.getElem?_eq_none h]

/-- Up to the 259th byte the count does not wrap (10_state R21). -/
theorem rxCnt_succ_toNat {n : Count} (h : n.toNat < 259) : (n + 1).toNat = n.toNat + 1 :=
  BitVec.toNat_add_of_lt (show n.toNat + 1 < 512 by omega)

/-- A received byte is appended to the bytes held (42_packet_decoder R152). -/
theorem Received.of_receiveByte {s : State} {B : List Byte} (h : Received s B) (b : Byte) :
    Received (receiveByte s b) (B ++ [b]) := by
  obtain ⟨hcnt, hbuf⟩ := h
  have hold : ∀ i, i < B.length → byteAt (B ++ [b]) i = byteAt B i := fun i hi => byteAt_append_left hi
  unfold Received
  rw [List.length_append, List.length_singleton]
  rcases receiveByte_cases s b with ⟨hlt, he⟩ | ⟨heq, he⟩ | ⟨hge, he⟩ <;> rw [he]
  · have hn : s.rxCnt.toNat = B.length := by omega
    refine ⟨by rw [State.setRxCnt_rxCnt, rxCnt_succ_toNat hlt]; omega, fun i hi => ?_⟩
    rw [State.setRxCnt_rxBuf, State.setRxBuf_rxBuf, hn]
    rcases Nat.lt_or_ge i B.length with hi' | hi'
    · rw [ByteBuf.get_set_of_ne _ _ (by omega), hold i hi', hbuf i (by omega)]
    · obtain rfl : i = B.length := by omega
      rw [ByteBuf.get_set_self _ _ (by omega)]
      simp [byteAt]
  · refine ⟨by simp; omega, fun i hi => ?_⟩
    rw [State.setRxCnt_rxBuf, hold i (by omega), hbuf i (by omega)]
  · refine ⟨by omega, fun i hi => ?_⟩
    rw [hold i (by omega), hbuf i (by omega)]

/-- The bytes held are a matter of the decoder's registers alone (10_state R21, R22). -/
theorem Received.congr {s t : State} {B : List Byte} (h : Received s B) (hd : SameDecoder s t) : Received t B := by
  obtain ⟨hcnt, hbuf, -⟩ := hd
  unfold Received
  rw [← hcnt, ← hbuf]
  exact h

/-- An empty count holds no bytes, whatever the buffer's stale entries (10_state R22). -/
theorem received_nil {s : State} (h : s.rxCnt = 0) : Received s [] :=
  ⟨congrArg BitVec.toNat h, fun _ hi => absurd hi (Nat.not_lt_zero _)⟩

theorem decBytes_cons (inp : StepInput) (inps : List StepInput) :
    decBytes (inp :: inps) = decBytes [inp] ++ decBytes inps :=
  List.filterMap_append (l := [inp])

/-- A step that is no reset and presents no `DEC_END` appends the byte of the `DEC_BYTE` it presents, if it presents one
(42_packet_decoder R152, 10_state R34). -/
theorem Received.of_clock {inp : StepInput} {s t : State} {B : List Byte} (h : Received s B) (hr : inp.rst = false)
    (hend : presents inp ≠ some .decEnd) (hc : clock inp s = .next t) : Received t (B ++ decBytes [inp]) := by
  have hdec := clock_decoder hr hc
  cases hp : presents inp with
  | none =>
    rw [hp] at hdec
    simpa [decBytes, hp] using h.congr hdec
  | some i =>
    rw [hp] at hdec
    cases i with
    | decByte b => simpa [decBytes, hp] using (h.of_receiveByte b).congr hdec
    | decEnd => exact absurd hp hend
    | _ => simpa [decBytes, hp] using h.congr hdec

/-- Over steps without a reset or a `DEC_END` the bytes of the `DEC_BYTE`s are appended, whatever else the steps do
(42_packet_decoder R156). -/
theorem Received.of_clockAll {inps : List StepInput} {s t : State} {B : List Byte} (h : Received s B)
    (hin : ∀ inp ∈ inps, inp.rst = false ∧ presents inp ≠ some .decEnd) (hc : clockAll inps s = .next t) :
    Received t (B ++ decBytes inps) := by
  induction inps generalizing s B with
  | nil => cases hc; simpa [decBytes] using h
  | cons inp inps ih =>
    obtain ⟨u, hu, ht⟩ := clockAll_cons_next hc
    obtain ⟨⟨hr, hend⟩, hrest⟩ := List.forall_mem_cons.mp hin
    rw [decBytes_cons, ← List.append_assoc]
    exact ih (h.of_clock hr hend hu) hrest ht

/-! ## The result of a `DEC_END` -/

/-- The verdicts with fields are those of the codes 1 and 2 (60_exceptions R202). -/
theorem hasFields_iff_code (v : DecStatus) : v.hasFields = true ↔ v.code = 1 ∨ v.code = 2 := by
  cases v <;> decide

/-- What a verdict with fields writes: the fields where the frame has them, and `PBUF_D` filled up with 0
(42_packet_decoder R155). -/
theorem decResult_of_hasFields {s : State} (h : (verdictHw s).hasFields = true) :
    (decResult s).id = s.rxBuf.get 2 ∧ (decResult s).len = s.rxBuf.get 3 ∧ (decResult s).err = s.rxBuf.get 4 ∧
    (decResult s).np.toNat = (s.rxBuf.get 3).toNat - 2 ∧ (decResult s).chk = s.rxBuf.get (s.rxCnt.toNat - 1) ∧
    ∀ i, (decResult s).params.get i = if i < (s.rxBuf.get 3).toNat - 2 then s.rxBuf.get (5 + i) else 0x00 := by
  obtain ⟨h6, -, -, hlen, -⟩ := verdictHw_hasFields h
  have hnp : (s.rxBuf.get 3 - 2).toNat = (s.rxBuf.get 3).toNat - 2 :=
    BitVec.toNat_sub_of_le (show 2 ≤ (s.rxBuf.get 3).toNat by omega)
  simp only [decResult, h, if_true, hnp, true_and]
  intro i
  rcases Nat.lt_or_ge i 253 with hi | hi
  · exact ByteBuf.get_tabulate _ hi
  · rw [ByteBuf.get_of_le _ hi, if_neg (by omega)]

/-- The status written is the verdict (42_packet_decoder R155). -/
theorem decResult_status (s : State) : (decResult s).status = verdictHw s := by
  simp only [decResult]
  split <;> rfl

/-- The verdict in hardware is that of `parse` on all the bytes received: up to 259 bytes both read the same ones, and
beyond that neither count can be a frame's (42_packet_decoder R154, R156). -/
theorem verdictHw_of_received {s : State} {B : List Byte} (h : Received s B) : verdictHw s = (parse B).status := by
  obtain ⟨hcnt, hbuf⟩ := h
  have hL := (byteAt B 3).isLt
  unfold verdictHw parse Config.frameMin
  simp only [apply_ite Parsed.status]
  refine ite_congr (propext (by omega)) (fun _ => rfl) fun h6 => ?_
  rw [hbuf 0 (by omega), hbuf 1 (by omega), hbuf 3 (by omega), hbuf 4 (by omega)]
  refine ite_congr rfl (fun _ => rfl) fun _ => ite_congr (propext (by omega)) (fun _ => rfl) fun hlen => ?_
  have hn : s.rxCnt.toNat = B.length := by omega
  have hslice : slice s.rxBuf.data 2 (B.length - 2) = slice B 2 (B.length - 2) :=
    slice_congr (by rw [s.rxBuf.size]; omega) (by omega) fun k _ hk => hbuf k (by omega)
  rw [hn, hbuf _ (by omega), hslice]
  rfl

/-- The fields written are those of `parse` (42_packet_decoder R156). -/
theorem decResult_of_received {s : State} {B : List Byte} {f : Fields} (h : Received s B)
    (hp : parse B = .ok f ∨ parse B = .servoFault f) :
    (decResult s).id = f.id ∧ (decResult s).len = f.len ∧ (decResult s).err = f.err ∧
    (decResult s).np.toNat = f.params.length ∧ (decResult s).chk = f.chk ∧
    ∀ i, (decResult s).params.get i = byteAt f.params i := by
  have hf : (verdictHw s).hasFields = true := by
    rw [verdictHw_of_received h]
    rcases hp with hp | hp <;> rw [hp] <;> rfl
  obtain ⟨h6, -, -, hlen, -, rfl, -⟩ := parse_fields hp
  obtain ⟨hcnt, hbuf⟩ := h
  have hL := (byteAt B 3).isLt
  have hn : s.rxCnt.toNat = B.length := by omega
  have hparams : (fieldsOf B).params.length = (byteAt B 3).toNat - 2 := by
    rw [fieldsOf, length_slice (by omega)]
    omega
  obtain ⟨hid, hlenr, herr, hnp, hchk, hpar⟩ := decResult_of_hasFields hf
  rw [hn] at hchk
  rw [hid, hlenr, herr, hnp, hchk, hparams, hbuf 2 (by omega), hbuf 3 (by omega), hbuf 4 (by omega),
    hbuf _ (by omega)]
  refine ⟨rfl, rfl, rfl, rfl, rfl, fun i => ?_⟩
  rw [hpar, hbuf 3 (by omega)]
  split
  · rw [hbuf _ (by omega)]
    exact (byteAt_slice (by omega)).symm
  · rw [byteAt_of_length_le (by omega)]

/-- The result registers after a `DEC_END` hold the outcome of `parse` on the bytes received (42_packet_decoder
R156). -/
theorem holdsParse_decEnd {s : State} {B : List Byte} (h : Received s B) :
    HoldsParse ((s.setResult (decResult s)).setRxCnt 0) (parse B) := by
  have hv := verdictHw_of_received h
  refine ⟨(decResult_status s).trans hv, ?_⟩
  have hdiscarded : (parse B).status.hasFields = false → decResult s = DecResult.discarded (parse B).status :=
    fun hno => hv ▸ decResult_discarded (hv ▸ hno)
  cases hp : parse B with
  | ok f => exact decResult_of_received h (.inl hp)
  | servoFault f => exact decResult_of_received h (.inr hp)
  | _ => simp [hdiscarded, hp, Parsed.status, DecStatus.hasFields, DecResult.discarded]

/-! ## The obligations about `DEC_BYTE` and `DEC_END` -/

/-- Settles O43: whatever the steps do besides, they append the bytes received, and the `DEC_END` parses them. -/
theorem decEndEqualsParse : Obligations.DecEndEqualsParse := by
  intro inps s t h0 hin hc
  exact ⟨_, rfl, holdsParse_decEnd ((received_nil h0).of_clockAll hin hc)⟩

/-- Settles O40: a word of opcode 5 is a `DEC_BYTE`, which ends in one of the three ways of a received byte. -/
theorem decByteAppends : Obligations.DecByteAppends := by
  refine ⟨fun w => ?_, fun s b => ⟨receiveByte s b, rfl, receiveByte_frame s b, ?_⟩⟩
  · obtain ⟨-, -, -, -, -, hbyte, -⟩ := opcodeMapDecodes w
    exact hbyte
  · rcases receiveByte_cases s b with ⟨hlt, he⟩ | ⟨heq, he⟩ | ⟨hge, he⟩ <;> rw [he]
    · have hset := fun j (hj : j ≠ s.rxCnt.toNat) => ByteBuf.get_set_of_ne s.rxBuf b hj
      exact ⟨fun _ => ⟨rxCnt_succ_toNat hlt, ByteBuf.get_set_self _ b hlt, hset⟩,
        fun h => absurd h (by omega), fun h => absurd h (by omega)⟩
    · exact ⟨fun h => absurd h (by omega), fun _ => ⟨rfl, rfl⟩, fun h => absurd h (by omega)⟩
    · exact ⟨fun h => absurd h (by omega), fun h => absurd h (by omega), fun _ => rfl⟩

/-- Settles O41: a word of opcode 6 is a `DEC_END`; it writes the verdict, and by the verdict the fields or zeros. -/
theorem decEndWritesVerdictAndFields : Obligations.DecEndWritesVerdictAndFields := by
  refine ⟨fun w => ?_, fun s => ⟨_, rfl, rfl, ?_⟩⟩
  · obtain ⟨-, -, -, -, -, -, hend, -⟩ := opcodeMapDecodes w
    exact hend
  · simp only [State.setRxCnt_decStatus, State.setResult_decStatus, decResult_status, ← hasFields_iff_code]
    refine ⟨?_, fun hf => ?_, fun herr => ?_⟩
    · simp only [verdictHw, apply_ite DecStatus.code]
      rfl
    · obtain ⟨hid, hlen, herr, hnp, hchk, hpar⟩ := decResult_of_hasFields hf
      exact ⟨hid, hlen, herr, hnp, hchk, fun i _ => hpar i⟩
    · have hno : (verdictHw s).hasFields = false := by
        rw [← Bool.not_eq_true, hasFields_iff_code]
        rcases herr with e | e | e <;> rw [e] <;> decide
      simp [decResult_discarded hno, DecResult.discarded]

/-! ## A frame, parsed -/

/-- The fields `parse` reads out of a frame (42_packet_decoder R150, R158). -/
def frameFields (id cmd : Byte) (P : List Byte) : Fields :=
  { id := id, len := BitVec.ofNat 8 (P.length + 2), err := cmd, params := P, chk := checksum (frameBody id cmd P) }

/-- The parameters, cut out of a frame (30_encoding R69). -/
theorem slice_params_frameOf (id cmd : Byte) (P : List Byte) :
    slice (frameOf (frameBody id cmd P)) 5 (P.length + 4) = P :=
  calc slice (frameOf (frameBody id cmd P)) 5 (P.length + 4)
    _ = (slice (frameOf (frameBody id cmd P)) 2 (P.length + 4)).drop 3 := (List.drop_drop (i := 3) (j := 2)).symm
    _ = (frameBody id cmd P).drop 3 := by rw [slice_frameOf]
    _ = P := rfl

theorem fieldsOf_frameOf (id cmd : Byte) (P : List Byte) :
    fieldsOf (frameOf (frameBody id cmd P)) = frameFields id cmd P := by
  obtain ⟨-, -, h2, h3, h4, -, hchk⟩ := byteAt_frameOf id cmd P
  simp only [fieldsOf, frameFields, length_frameOf, length_frameBody, slice_params_frameOf, h2, h3,
    h4, hchk, Nat.add_assoc, Nat.reduceAdd, Nat.reduceSubDiff]

/-- A frame with any ID parses by its byte 4 to its own fields (42_packet_decoder R158, R159). -/
theorem parse_frameOf (id cmd : Byte) {P : List Byte} (hP : P.length ≤ 253) :
    parse (frameOf (frameBody id cmd P)) =
      if cmd = 0 then .ok (frameFields id cmd P) else .servoFault (frameFields id cmd P) := by
  obtain ⟨h0, h1, -, h3, h4, -, hchk⟩ := byteAt_frameOf id cmd P
  have hlen : (frameOf (frameBody id cmd P)).length = P.length + 6 := by simp
  have hlen3 : (byteAt (frameOf (frameBody id cmd P)) 3).toNat = P.length + 2 := by
    rw [h3, BitVec.toNat_ofNat]
    exact Nat.mod_eq_of_lt (by omega)
  have hbody := slice_frameOf id cmd P
  rw [parse_of_valid (by omega) h0 h1 (by omega) (by rw [hlen]; exact hchk.trans (congrArg checksum hbody.symm)),
    fieldsOf_frameOf, h4]

/-- An acknowledgment, byte by byte (42_packet_decoder R158). -/
theorem frameOf_ack (id : Byte) :
    frameOf (frameBody id 0x00 []) = [0xFF, 0xFF, id, 0x02, 0x00, checksum [id, 0x02, 0x00]] := rfl

/-- Settles O47: a built frame is a frame, which parses to its own fields whatever its ID. -/
theorem builtFrameLoopsBack : Obligations.BuiltFrameLoopsBack := by
  refine ⟨fun id cmd P F hbuild => ?_, fun id hid => ?_⟩
  · obtain ⟨hP, -, rfl⟩ := build_eq_frame_iff.mp hbuild
    refine ⟨frameFields id cmd P, parse_frameOf id cmd hP, rfl, rfl, rfl, ?_, ?_⟩
    · exact Nat.mod_eq_of_lt (show P.length + 2 < 256 by omega)
    · rw [length_frameOf, length_frameBody]
      exact congrArg checksum (slice_frameOf id cmd P).symm
  · rw [← frameOf_ack]
    exact ⟨build_eq_frame_iff.mpr ⟨Nat.zero_le _, hid, rfl⟩, frameFields id 0x00 [],
      parse_frameOf id 0x00 (Nat.zero_le _), rfl⟩

/-- Settles O48: the frame's fields hold its ID as it is; the worked example is evaluated. -/
theorem parseDoesNotCheckId : Obligations.ParseDoesNotCheckId :=
  ⟨fun id err P hP => ⟨frameFields id err P, parse_frameOf id err hP, rfl⟩, by decide⟩

/-! ## A changed byte -/

/-- Changing one byte changes the checksum (40_checksum_unit R102, item 5). -/
theorem checksum_set_eq_iff {L : List Byte} {i : Nat} (h : i < L.length) (v : Byte) :
    checksum (L.set i v) = checksum L ↔ v = byteAt L i := by
  have hset : ∀ w : Byte, L.set i w = L.take i ++ [w] ++ L.drop (i + 1) := fun w => by
    simp [List.set_eq_take_append_cons_drop, h]
  have hL : L = L.set i (byteAt L i) := by simp [byteAt, h]
  rw [checksum_eq_iff, hset v]
  conv_lhs => rhs; rw [hL, hset]
  exact byteSum8_replace_eq_iff ..

/-- A byte written inside a slice, seen in the slice. -/
theorem slice_set {B : List Byte} {i j k : Nat} (h : j ≤ i) (v : Byte) :
    slice (B.set i v) j k = (slice B j k).set (i - j) v := by
  rw [slice, slice, List.take_set, List.drop_set, if_neg (Nat.not_lt.mpr h)]

/-- A byte written behind a slice is not seen in it. -/
theorem slice_set_of_lt {B : List Byte} {i j k : Nat} (h : k < i) (v : Byte) :
    slice (B.set i v) j k = slice B j k := by
  rw [slice, slice, List.take_set_of_le h]

/-- In a buffer whose last byte is its checksum, a change of one byte from the ID on breaks that equation: it changes
the last byte or the checksum of the others, not both (42_packet_decoder R157). -/
theorem wrong_checksum_set {B : List Byte} {i : Nat} {v : Byte}
    (hchk : byteAt B (B.length - 1) = checksum (slice B 2 (B.length - 2))) (h2 : 2 ≤ i) (hi : i < B.length)
    (hv : v ≠ byteAt B i) :
    byteAt (B.set i v) (B.length - 1) ≠ checksum (slice (B.set i v) 2 (B.length - 2)) := by
  rw [byteAt_set hi]
  rcases Nat.lt_or_ge (B.length - 2) i with hlast | hinner
  · obtain rfl : i = B.length - 1 := by omega
    rwa [if_pos rfl, slice_set_of_lt hlast, ← hchk]
  · have hcovered : i - 2 < (slice B 2 (B.length - 2)).length := by rw [length_slice (by omega)]; omega
    have hat : byteAt (slice B 2 (B.length - 2)) (i - 2) = byteAt B i := by
      rw [byteAt_slice (by omega), Nat.add_sub_cancel' h2]
    rw [if_neg (by omega), slice_set h2, hchk, ne_comm, Ne, checksum_set_eq_iff hcovered, hat]
    exact hv

/-- Any change of one byte of a structurally valid buffer is detected, with the verdict of the byte's place
(42_packet_decoder R157). -/
theorem parse_set_of_ne {B : List Byte} {f : Fields} {i : Nat} {v : Byte}
    (h : parse B = .ok f ∨ parse B = .servoFault f) (hi : i < B.length) (hv : v ≠ byteAt B i) :
    parse (B.set i v) =
      if i = 0 ∨ i = 1 then .framingError else if i = 3 then .truncatedFrame else .checksumError := by
  obtain ⟨h6, h0, h1, hlen, hchk, -⟩ := parse_fields h
  have h6' : 6 ≤ (B.set i v).length := by rwa [List.length_set]
  have hself : byteAt (B.set i v) i = v := by rw [byteAt_set hi, if_pos rfl]
  have hother : ∀ j, i ≠ j → byteAt (B.set i v) j = byteAt B j := fun j hj => by rw [byteAt_set hi, if_neg hj]
  by_cases hpre : i = 0 ∨ i = 1
  · rw [if_pos hpre]
    apply parse_of_bad_preamble h6'
    rcases hpre with rfl | rfl
    · left; rwa [hself, ← h0]
    · right; rwa [hself, ← h1]
  · rw [if_neg hpre]
    have h0' : byteAt (B.set i v) 0 = 0xFF := by rw [hother 0 (by omega), h0]
    have h1' : byteAt (B.set i v) 1 = 0xFF := by rw [hother 1 (by omega), h1]
    by_cases h3 : i = 3
    · subst h3
      have hv' : v.toNat ≠ (byteAt B 3).toNat := mt BitVec.eq_of_toNat_eq hv
      exact parse_of_wrong_length h6' h0' h1' (by rw [hself, List.length_set]; omega)
    · rw [if_neg h3]
      apply parse_of_wrong_checksum h6' h0' h1' (by rw [hother 3 h3, List.length_set, hlen])
      rw [List.length_set]
      exact wrong_checksum_set hchk (by omega) hi hv

/-- A flipped bit makes another byte. -/
theorem xor_bit_ne_self (b : Byte) {k : Nat} (hk : k < 8) : b ^^^ (1#8 <<< k) ≠ b := by
  intro h
  have hbit : (b ^^^ (1#8 <<< k)).getLsbD k = b.getLsbD k := congrArg (·.getLsbD k) h
  simp [hk] at hbit

/-- Settles O46: a flipped bit is a change of one byte. -/
theorem singleBitFlipIsDetected : Obligations.SingleBitFlipIsDetected :=
  fun _ _ _ _ h hi hk => parse_set_of_ne h hi (xor_bit_ne_self _ hk)

end Sys2Proof.Machine

namespace Sys2Proof.Machine

/-! ## The payload helpers -/

/-- `le_bytes` has no result for a value out of range (43_wire_commands R184). -/
theorem leBytes_of_le {value w : Nat} (h : 256 ^ w ≤ value) : leBytes value w = none :=
  if_neg (Nat.not_lt.mpr h)

/-- `le_bytes` answers in range only (43_wire_commands R184). -/
theorem lt_of_leBytes {value w : Nat} {bs : List Byte} (h : leBytes value w = some bs) : value < 256 ^ w := by
  by_contra hge
  rw [leBytes_of_le (Nat.not_lt.mp hge)] at h
  cases h

/-- `le_bytes` by recursion on the width: the low byte, then the bytes of the value shifted by a byte. -/
theorem leBytes_succ (value w : Nat) :
    leBytes value (w + 1) = (leBytes (value / 256) w).map (BitVec.ofNat 8 value :: ·) := by
  have hrange : value / 256 < 256 ^ w ↔ value < 256 ^ (w + 1) := by
    rw [Nat.div_lt_iff_lt_mul (by decide), Nat.pow_succ]
  by_cases h : value / 256 < 256 ^ w
  · rw [leBytes_of_lt h, leBytes_of_lt (hrange.mp h), map_range_succ_byte, Option.map_some]
  · have hlarge : ¬value < 256 ^ (w + 1) := mt hrange.mpr h
    rw [leBytes_of_le (Nat.not_lt.mp h), leBytes_of_le (Nat.not_lt.mp hlarge), Option.map_none]

/-- `le_bytes` makes as many bytes as the width says (43_wire_commands R184). -/
theorem length_of_leBytes {value w : Nat} {bs : List Byte} (h : leBytes value w = some bs) : bs.length = w := by
  rw [leBytes_of_lt (lt_of_leBytes h), Option.some.injEq] at h
  rw [← h, List.length_map, List.length_range]

/-- Byte `k` is bits `8k + 7` to `8k` of the value (43_wire_commands R184). -/
theorem byteAt_of_leBytes {value w k : Nat} {bs : List Byte} (h : leBytes value w = some bs) (hk : k < w) :
    (byteAt bs k).toNat = value / 256 ^ k % 256 := by
  rw [leBytes_of_lt (lt_of_leBytes h), Option.some.injEq] at h
  have hbyte : byteAt bs k = BitVec.ofNat 8 (value >>> (8 * k)) := by simp [← h, byteAt, hk]
  rw [hbyte, BitVec.toNat_ofNat, Nat.shiftRight_eq_div_pow, Nat.pow_mul]

/-- `le_value` undoes `le_bytes` (43_wire_commands R184, R185). -/
theorem leValue_of_leBytes {value w : Nat} {bs : List Byte} (h : leBytes value w = some bs) : leValue bs = value := by
  induction w generalizing value bs with
  | zero =>
    have hzero : value < 256 ^ 0 := lt_of_leBytes h
    obtain rfl : bs = [] := List.eq_nil_of_length_eq_zero (length_of_leBytes h)
    rw [leValue_nil]
    omega
  | succ w ih =>
    rw [leBytes_succ, Option.map_eq_some_iff] at h
    obtain ⟨high, hhigh, rfl⟩ := h
    rw [leValue_cons, ih hhigh, BitVec.toNat_ofNat]
    exact Nat.mod_add_div value 256

/-- `le_bytes` undoes `le_value` (43_wire_commands R184, R185). -/
theorem leBytes_leValue (bs : List Byte) : leBytes (leValue bs) bs.length = some bs := by
  induction bs with
  | nil => rfl
  | cons b bs ih =>
    have hhigh : leValue (b :: bs) / 256 = leValue bs := by
      rw [leValue_cons]
      omega
    have hlow : BitVec.ofNat 8 (leValue (b :: bs)) = b := by
      apply BitVec.eq_of_toNat_eq
      rw [BitVec.toNat_ofNat, leValue_cons]
      omega
    rw [List.length_cons, leBytes_succ, hhigh, ih, Option.map_some, hlow]

/-- `LE16` is `le_value` of two bytes (43_wire_commands R185). -/
theorem le16_eq_leValue (lo hi : Byte) : le16 lo hi = leValue [lo, hi] := by
  simp [le16, leValue_cons]

/-- `LE16` is a 16-bit value (43_wire_commands R185). -/
theorem le16_le (lo hi : Byte) : le16 lo hi ≤ 65535 := by
  unfold le16
  omega

/-- Settles O55: both directions of the round trip are inductions over the bytes, low byte first; a list's value is in
range because `le_bytes` answers for it. -/
theorem littleEndianBytesAndValue : Obligations.LittleEndianBytesAndValue := by
  refine ⟨fun value w h => ?_, fun _ _ => leBytes_of_le,
    fun bs => ⟨lt_of_leBytes (leBytes_leValue bs), leBytes_leValue bs⟩,
    fun lo hi => ⟨le16_eq_leValue lo hi, rfl, le16_le lo hi⟩⟩
  have hbs := leBytes_of_lt h
  exact ⟨_, hbs, length_of_leBytes hbs, fun _ => byteAt_of_leBytes hbs, leValue_of_leBytes hbs⟩

/-- `mt_offset` on the raw value as a number: the magnitude is its remainder by 2^15, and the offset is negative when
its bit 15 is the value that the open parameter reads as negative (43_wire_commands R186). -/
theorem mtOffset_eq (neg : Bool) (raw : BitVec 16) :
    mtOffset neg raw =
      if decide (32768 ≤ raw.toNat) = neg then -((raw.toNat % 32768 : Nat) : Int) else (raw.toNat % 32768 : Nat) := by
  have hmag : (raw.extractLsb' 0 15).toNat = raw.toNat % 32768 := by simp
  have hsign : raw.getLsbD 15 = decide (32768 ≤ raw.toNat) := BitVec.msb_eq_decide raw
  unfold mtOffset
  rw [hmag, hsign]
  cases neg <;> simp

/-- Bit 15 clear: the magnitude is the raw value. -/
theorem mtOffset_of_lt {raw : BitVec 16} (h : raw.toNat < 32768) (neg : Bool) :
    mtOffset neg raw = if neg then (raw.toNat : Int) else -raw.toNat := by
  rw [mtOffset_eq, Nat.mod_eq_of_lt h, decide_eq_false (Nat.not_le.mpr h)]
  cases neg <;> rfl

/-- Bit 15 set: the magnitude is the raw value without it. -/
theorem mtOffset_of_le {raw : BitVec 16} (h : 32768 ≤ raw.toNat) (neg : Bool) :
    mtOffset neg raw = if neg then -((raw.toNat : Int) - 32768) else (raw.toNat : Int) - 32768 := by
  have hmag : ((raw.toNat % 32768 : Nat) : Int) = (raw.toNat : Int) - 32768 := by omega
  rw [mtOffset_eq, hmag, decide_eq_true h]
  cases neg <;> rfl

/-- The range of an offset: a magnitude has 15 bits (43_wire_commands R186). -/
theorem mtOffset_bounds (neg : Bool) (raw : BitVec 16) : -32767 ≤ mtOffset neg raw ∧ mtOffset neg raw ≤ 32767 := by
  rw [mtOffset_eq]
  split <;> omega

/-- Settles O56: by bit 15 of the raw value. -/
theorem multiTurnOffset : Obligations.MultiTurnOffset := fun raw =>
  ⟨fun h => ⟨mtOffset_of_lt h true, mtOffset_of_lt h false⟩,
    fun h => ⟨mtOffset_of_le h true, mtOffset_of_le h false⟩,
    fun neg => mtOffset_bounds neg raw, by decide⟩

end Sys2Proof.Machine

namespace Sys2Proof.Machine

/-! ## The reset step -/

/-- A step with `rst = 1` is the reset of the registers, whatever else is presented (70_reset_and_hazards R220). -/
theorem clock_of_rst {inp : StepInput} (h : inp.rst = true) (s : State) : clock inp s = .next s.resetRegs := if_pos h

/-- Settles O9: the registers of the reset state are constants, and its three buffers hold zeros at every index. -/
theorem resetStepClearsEveryRegister : Obligations.ResetStepClearsEveryRegister := by
  intro s inp h
  have hchk : s.resetRegs.outputs.cuChk = 0xFF := BitVec.not_zero
  exact ⟨s.resetRegs, clock_of_rst h s, rfl, hchk, rfl, rfl, rfl, rfl, rfl, rfl, rfl, ByteBuf.get_zeros,
    rfl, ByteBuf.get_zeros, rfl, rfl, rfl, rfl, rfl, rfl, ByteBuf.get_zeros, rfl, rfl⟩

end Sys2Proof.Machine

namespace Sys2Proof.Machine

/-! ## Wire commands and their requests -/

/-- A wire command's request decodes to it (43_wire_commands R180 to R182). -/
theorem decodeRequest_of_requestOf {i : Instr} {q : Request} (h : requestOf i = some q) :
    decodeRequest q = .instr i := by
  cases i with
  | framePing id => cases h; rfl
  | frameRead id address width => cases h; rfl
  | frameWrite id address width value =>
    cases hv : leBytes value width with
    | none => simp [requestOf, hv] at h
    | some v =>
      obtain rfl : (⟨id, 3, address :: v⟩ : Request) = q := by simpa [requestOf, hv] using h
      change Decoded.instr (.frameWrite id address v.length (leValue v)) = _
      rw [length_of_leBytes hv, leValue_of_leBytes hv]
  | _ => cases h

/-- Only a wire command's own request decodes to it (43_wire_commands R180 to R182). -/
theorem requestOf_of_decodeRequest {i : Instr} {q : Request} (h : decodeRequest q = .instr i) :
    requestOf i = some q := by
  obtain ⟨id, cmd, P⟩ := q
  have hcode : ∀ {n : Nat}, cmd.toNat = n → cmd = BitVec.ofNat 8 n := fun e => by
    rw [← e, BitVec.ofNat_toNat, BitVec.setWidth_eq]
  simp only [decodeRequest] at h
  split at h
  · next hc =>
    obtain rfl := hcode hc
    unfold decodePingParams at h
    split at h <;> cases h
    rfl
  · next hc =>
    obtain rfl := hcode hc
    unfold decodeReadParams at h
    split at h <;> cases h
    rfl
  · next hc =>
    obtain rfl := hcode hc
    unfold decodeWriteParams at h
    split at h <;> cases h
    simp only [requestOf, leBytes_leValue]
    rfl
  · cases h

/-- A well-formed wire command has a request for a valid ID with a parameter count that a frame can hold
(43_wire_commands R180 to R184). -/
theorem requestOf_of_wellFormed {i : Instr} (hwf : i.wellFormed = true) (hword : encodeWord i = none) :
    ∃ q, requestOf i = some q ∧ q.params.length ≤ 253 ∧ q.id.toNat ≤ 253 := by
  cases i with
  | framePing id => exact ⟨_, rfl, Nat.zero_le _, (validId_iff id).mp hwf⟩
  | frameRead id address width => exact ⟨_, rfl, show 2 ≤ 253 by decide, (validId_iff id).mp hwf⟩
  | frameWrite id address width value =>
    simp only [Instr.wellFormed, Bool.and_eq_true, decide_eq_true_eq, validId_iff] at hwf
    obtain ⟨⟨hid, hwidth⟩, hvalue⟩ := hwf
    have hv := leBytes_of_lt hvalue
    refine ⟨_, by simp only [requestOf, hv]; rfl, ?_, hid⟩
    rw [List.length_cons, length_of_leBytes hv]
    exact hwidth
  | _ => cases hword

/-! ## Request frames -/

/-- The encoding of a wire command is the frame of its request (41_packet_encoder R120). -/
theorem encodeFrame_of_requestOf {i : Instr} {q : Request} (h : requestOf i = some q) (hP : q.params.length ≤ 253)
    (hid : q.id.toNat ≤ 253) : encodeFrame i = some (frameOf (frameBody q.id q.cmd q.params)) := by
  have hbuild : build q.id q.cmd q.params = .frame (frameOf (frameBody q.id q.cmd q.params)) :=
    build_eq_frame_iff.mpr ⟨hP, hid, rfl⟩
  simp only [encodeFrame, h, hbuild]

/-- A frame for a valid ID decodes as the request whose operands it was built from (30_encoding R69, R71). -/
theorem decodeFrame_frameOf {id cmd : Byte} {P : List Byte} (hP : P.length ≤ 253) (hid : id.toNat ≤ 253) :
    decodeFrame (frameOf (frameBody id cmd P)) = decodeRequest ⟨id, cmd, P⟩ := by
  have hfields : decodeFields (frameFields id cmd P) = decodeRequest ⟨id, cmd, P⟩ := if_pos ((validId_iff id).mpr hid)
  rw [decodeFrame, parse_frameOf id cmd hP]
  split_ifs <;> exact hfields

/-- A buffer of at least six bytes, place by place (30_encoding R69). -/
theorem exists_bytes_of_six_le {F : List Byte} (h : 6 ≤ F.length) :
    ∃ b0 b1 id len err P chk, F = b0 :: b1 :: id :: len :: err :: (P ++ [chk]) := by
  match F with
  | b0 :: b1 :: id :: len :: err :: R =>
    rcases List.eq_nil_or_concat R with rfl | ⟨P, chk, rfl⟩
    · simp at h
    · exact ⟨b0, b1, id, len, err, P, chk, by simp⟩

/-- A structurally valid buffer is the frame of the fields `parse` reads out of it (42_packet_decoder R150,
30_encoding R69). -/
theorem eq_frameOf_of_parse {F : List Byte} {f : Fields} (h : parse F = .ok f ∨ parse F = .servoFault f) :
    F = frameOf (frameBody f.id f.err f.params) ∧ f.params.length ≤ 253 := by
  obtain ⟨h6, h0, h1, hlen, hchk, rfl, -⟩ := parse_fields h
  clear h
  obtain ⟨b0, b1, id, len, err, P, chk, hF⟩ := exists_bytes_of_six_le h6
  have hbytes : F.length = P.length + 6 := by simp [hF]
  have hL : P.length + 2 = len.toNat := by simpa [hF, byteAt] using hlen
  have hlen : BitVec.ofNat 8 (P.length + 2) = len := by
    rw [hL, BitVec.ofNat_toNat, BitVec.setWidth_eq]
  have hbody : slice F 2 (P.length + 4) = frameBody id err P := by simp [hF, slice, frameBody, hlen]
  have hparams : slice F 5 (P.length + 4) = P := by simp [hF, slice]
  have hlast : byteAt F (P.length + 5) = chk := by simp [hF, byteAt]
  have hfields : fieldsOf F = ⟨id, len, err, P, chk⟩ := by
    simp only [fieldsOf, hbytes, Nat.reduceSubDiff, hparams, hlast]
    simp [hF, byteAt]
  have hsum : chk = checksum (frameBody id err P) := by
    rw [hbytes] at hchk
    exact hlast.symm.trans (hchk.trans (congrArg checksum hbody))
  obtain ⟨rfl, rfl⟩ : b0 = 0xFF ∧ b1 = 0xFF := by
    rw [hF] at h0 h1
    exact ⟨h0, h1⟩
  rw [hfields]
  refine ⟨?_, ?_⟩
  · rw [hF, hsum, ← hlen]
    simp [frameOf, frameBody, Config.preamble]
  · exact Nat.le_of_lt_succ (Nat.lt_of_add_lt_add_right (hL ▸ len.isLt))

/-! ## Command words -/

/-- An encoded command word decodes to its instruction (30_encoding R65). -/
theorem decodeWord_of_encodeWord {i : Instr} {w : Word} (h : encodeWord i = some w) : decodeWord w = .instr i := by
  cases i with
  | nop | cuClr | cuAdd _ | encLoad _ _ | encStart _ _ _ | decByte _ | decEnd => cases h; simp [decodeWord]
  | framePing _ | frameRead _ _ _ | frameWrite _ _ _ _ => cases h

/-- No format uses bits 24 to 27 (30_encoding R60 to R64). -/
theorem extractLsb'_usedMask (op : BitVec 4) : (usedMask op).extractLsb' 24 4 = 0 := by
  revert op
  decide

/-- A word whose bits 24 to 27 are 0 is its opcode and its three fields, packed (30_encoding R60 to R64). -/
theorem eq_packWord_of_zero {w : Word} (h : w.extractLsb' 24 4 = 0) :
    w = packWord (opField w) (field2 w) (field1 w) (field0 w) := by
  refine BitVec.eq_of_getLsbD_eq fun k hk => ?_
  have hzero : 24 ≤ k → k < 28 → w.getLsbD k = false := fun hlo hhi => by
    have hbit : (w.extractLsb' 24 4).getLsbD (k - 24) = false := by rw [h]; exact BitVec.getLsbD_zero
    rwa [BitVec.getLsbD_extractLsb', decide_eq_true (by omega), Bool.true_and, Nat.add_sub_cancel' hlo] at hbit
  rw [getLsbD_packWord _ _ _ _ hk]
  simp only [opField, field0, field1, field2, BitVec.getLsbD_extractLsb']
  split_ifs <;> grind

/-- The used bits of a word are the encoding of the instruction it decodes to (30_encoding R61 to R65, R67). -/
theorem encodeWord_of_decodeWord {w : Word} {i : Instr} (h : decodeWord w = .instr i) :
    encodeWord i = some (w &&& usedMask (opField w)) := by
  have hff (b : Byte) : b &&& 255#8 = b := BitVec.and_allOnes
  have hzero : (w &&& usedMask (opField w)).extractLsb' 24 4 = 0 := by
    rw [BitVec.extractLsb'_and, extractLsb'_usedMask]
    exact BitVec.and_zero
  have hopw : opField w = BitVec.ofNat 4 (opField w).toNat := by simp
  rw [eq_packWord_of_zero hzero, opField_and_usedMask]
  unfold decodeWord at h
  split at h
  case h_8 => cases h
  all_goals
    next hop =>
    cases h
    rw [hop] at hopw
    simp [encodeWord, usedMask, hopw, field0, field1, field2, BitVec.extractLsb'_and, hff]

/-- Settles O4: a command word decodes to its instruction, and the frame of a wire command's request parses to the
request. -/
theorem decodeEncodeIsIdentity : Obligations.DecodeEncodeIsIdentity := by
  intro i hwf
  cases hw : encodeWord i with
  | some w => exact ⟨.word w, by simp only [encode, hw], decodeWord_of_encodeWord hw⟩
  | none =>
    obtain ⟨q, hq, hP, hid⟩ := requestOf_of_wellFormed hwf hw
    refine ⟨.frame (frameOf (frameBody q.id q.cmd q.params)), ?_, ?_⟩
    · simp only [encode, hw, encodeFrame_of_requestOf hq hP hid, Option.map_some]
    · exact (decodeFrame_frameOf hP hid).trans (decodeRequest_of_requestOf hq)

/-- Settles O5: a buffer that parses is the frame of its fields, which are the operands of one request; a word's used
bits are its fields, packed. -/
theorem encodeDecodeIsIdentity : Obligations.EncodeDecodeIsIdentity := by
  refine ⟨fun F i h => ?_, fun w i => encodeWord_of_decodeWord⟩
  obtain ⟨f, hparse, hf⟩ : ∃ f, (parse F = .ok f ∨ parse F = .servoFault f) ∧ decodeFields f = .instr i := by
    unfold decodeFrame at h
    split at h
    · next f e => exact ⟨f, .inl e, h⟩
    · next f e => exact ⟨f, .inr e, h⟩
    · cases h
  unfold decodeFields at hf
  split at hf
  · next hid =>
    obtain ⟨hF, hP⟩ := eq_frameOf_of_parse hparse
    rw [hF]
    exact encodeFrame_of_requestOf (requestOf_of_decodeRequest hf) hP ((validId_iff _).mp hid)
  · cases hf

end Sys2Proof.Machine

namespace Sys2Proof.Machine

/-- Settles O1: each written-out word and frame is evaluated. -/
theorem writtenOutEncodingsDecode : Obligations.WrittenOutEncodingsDecode := by
  unfold Obligations.WrittenOutEncodingsDecode
  decide

/-! ## The writes of the control table -/

/-- The frame of a write of given bytes carries the address and the bytes as they are (43_wire_commands R182, R187). -/
theorem encodeFrame_blockWrite {id : Byte} (hid : id.toNat ≤ 253) (address : Byte) {bytes : List Byte}
    (hbytes : bytes.length ≤ 252) :
    encodeFrame (blockWrite id address bytes) = some (frameOf (frameBody id 0x03 (address :: bytes))) := by
  have hreq : requestOf (blockWrite id address bytes) = some ⟨id, 0x03, address :: bytes⟩ := by
    simp only [blockWrite, requestOf, leBytes_leValue]
  exact encodeFrame_of_requestOf hreq (Nat.succ_le_succ hbytes) hid

/-- A 2-byte value is the little-endian number of its bytes (43_wire_commands R184, R185). -/
theorem toNat_eq_le16 (v : BitVec 16) : v.toNat = le16 (v.extractLsb' 0 8) (v.extractLsb' 8 8) := by
  simp only [le16, BitVec.extractLsb'_toNat, Nat.shiftRight_eq_div_pow]
  omega

/-- Settles O60: each write is a block write of the data's bytes, and multi-turn mode is two comparisons with 0. -/
theorem controlTableWrites : Obligations.ControlTableWrites := by
  refine ⟨fun id p i d hid => ?_, fun id v w hid => ?_, fun lo hi => ?_⟩
  · exact ⟨encodeFrame_blockWrite hid _ (by decide), encodeFrame_blockWrite hid _ (by decide),
      encodeFrame_blockWrite hid _ (show 3 ≤ 252 by decide)⟩
  · refine ⟨_, _, _, _, toNat_eq_le16 v, toNat_eq_le16 w, ?_, ?_, ?_⟩
    · exact encodeFrame_blockWrite (bytes := pairBytes v ++ pairBytes w) hid _ (show 4 ≤ 252 by decide)
    · exact encodeFrame_blockWrite (bytes := pairBytes v) hid _ (show 2 ≤ 252 by decide)
    · exact encodeFrame_blockWrite (bytes := pairBytes v) hid _ (show 2 ≤ 252 by decide)
  · simp [selectsMultiTurn]

/-! ## Buffers of a wrong size -/

/-- Fewer than six bytes are no frame (42_packet_decoder R150, R151). -/
theorem parse_of_short {B : List Byte} (h : B.length ≤ 5) : parse B = .truncatedFrame := if_pos (Nat.lt_succ_of_le h)

/-- Behind a good header every size but that of LENGTH is TRUNCATED_FRAME, a short one too (42_packet_decoder R151). -/
theorem parse_of_length_ne {B : List Byte} (h0 : byteAt B 0 = 0xFF) (h1 : byteAt B 1 = 0xFF)
    (h : B.length ≠ (byteAt B 3).toNat + 4) : parse B = .truncatedFrame := by
  rcases Nat.lt_or_ge B.length 6 with hshort | h6
  · exact parse_of_short (Nat.le_of_lt_succ hshort)
  · exact parse_of_wrong_length h6 h0 h1 h

/-- Settles O45: a verdict with fields has been through every check, and the size is the first and the third of them. -/
theorem parseFacts : Obligations.ParseFacts := by
  refine ⟨fun B f h => ?_, fun B => parse_of_short, fun B hlong h0 h1 => ?_, fun B h6 hL h0 h1 => ?_⟩
  · obtain ⟨h6, -, -, hlen, hchk, rfl, -⟩ := parse_fields h
    have hL := (byteAt B 3).isLt
    have hparams : (fieldsOf B).params.length = (byteAt B 3).toNat - 2 := by
      rw [fieldsOf, length_slice (by omega)]
      omega
    exact ⟨h6, by omega, show 2 ≤ (byteAt B 3).toNat by omega, hparams, by omega, hchk⟩
  · exact parse_of_length_ne h0 h1 (Nat.ne_of_gt hlong)
  · exact parse_of_length_ne h0 h1 (by omega)

/-- Settles O49: the bytes of LENGTH and the header stay, and the size changes; a part too short to hold LENGTH is
short. -/
theorem wrongBufferBoundsAreTruncated : Obligations.WrongBufferBoundsAreTruncated := by
  intro A f h
  obtain ⟨h6, h0, h1, hlen, -⟩ := parse_fields h
  refine ⟨fun B hB => ?_, fun k hk => ?_⟩
  · have hsame : ∀ i, i < 6 → byteAt (A ++ B) i = byteAt A i := fun i hi => byteAt_append_left (by omega)
    have hpos := List.length_pos_of_ne_nil hB
    refine parse_of_length_ne ((hsame 0 (by decide)).trans h0) ((hsame 1 (by decide)).trans h1) ?_
    rw [hsame 3 (by decide), List.length_append]
    omega
  · have htake : (A.take k).length = k := List.length_take_of_le (Nat.le_of_lt hk)
    rcases Nat.lt_or_ge k 6 with hshort | hk6
    · exact parse_of_short (by omega)
    · have hsame : ∀ i, i < 6 → byteAt (A.take k) i = byteAt A i := fun i hi => byteAt_take (by omega)
      refine parse_of_length_ne ((hsame 0 (by decide)).trans h0) ((hsame 1 (by decide)).trans h1) ?_
      rw [hsame 3 (by decide), htake]
      omega

end Sys2Proof.Machine

namespace Sys2Proof.Machine

/-! ## The command word a step runs -/

/-- The meaning of a wire command is the `enc.frame` of its request (43_wire_commands R180 to R182). -/
theorem exec_of_requestOf {i : Instr} {q : Request} (h : requestOf i = some q) (s : State) :
    exec i s = encFrame q.id q.cmd q.params s := by
  cases i with
  | framePing id => cases h; rfl
  | frameRead id address width => cases h; rfl
  | frameWrite id address width value =>
    cases hv : leBytes value width with
    | none => simp [requestOf, hv] at h
    | some v =>
      obtain rfl : (⟨id, 3, address :: v⟩ : Request) = q := by simpa [requestOf, hv] using h
      simp only [exec, execFrameWrite, hv]
  | _ => cases h

section
variable {s : State} (id cmd : Byte) {P : List Byte}

/-- A held `enc.frame` has no effect (10_state R28). -/
theorem encFrame_of_held (hb : s.encBusy = true) (hl : P.length ≤ 255) : encFrame id cmd P s = .next s := by
  rw [encFrame_of_busy hb, if_neg (Nat.not_lt.mpr hl)]

/-- From an idle encoder an `enc.frame` without parameters is its start (30_encoding R74). -/
theorem encFrame_nil_of_idle (hb : s.encBusy = false) : encFrame id cmd [] s = .next (startFrame s id cmd 0) := by
  rw [encFrame.eq_def, if_neg (by simp), if_neg (by simp [hb])]

/-- From an idle encoder the step of an `enc.frame` with parameters loads the first one and leaves the other lines to
the host (10_state R11, 30_encoding R74). -/
theorem encFrame_cons_of_idle (hb : s.encBusy = false) (p : Byte) (hl : P.length ≤ 254) :
    encFrame id cmd (p :: P) s =
      .next ((s.setPbufE 0 p).queueLines (frameWords id cmd (BitVec.ofNat 8 (P.length + 1)) 1 P)) := by
  rw [encFrame.eq_def, if_neg (by simp; omega), if_neg (by simp [hb])]
  rfl

end

/-- A request runs as its `enc.frame`, whether its command code is that of a wire command or not (30_encoding R71,
R74). -/
theorem runCommand_request (q : Request) (s : State) :
    runCommand s (.request q) = encFrame q.id q.cmd q.params s := by
  cases hd : decodeRequest q with
  | instr i => simp only [runCommand, hd, exec_of_requestOf (requestOf_of_decodeRequest hd)]
  | reject e => simp only [runCommand, hd]

/-- The line whose word a command presents: its own, or the first one of its `enc.frame` (30_encoding R74). -/
def firstLine : Command → Option Instr
  | .word w => (decodeWord w).instr?
  | .request q =>
    match q.params with
    | [] => some (.encStart q.id q.cmd 0)
    | p :: _ => some (.encLoad 0 p)

/-- The line a step's inputs present, if they present one. -/
def presentedLine (inp : StepInput) : Option Instr := inp.cmd.bind firstLine

/-- A normal step without a request presents its instruction's line. -/
theorem presentedLine_of_no_request {inp : StepInput} (hr : inp.rst = false)
    (hq : ∀ q, inp.cmd ≠ some (.request q)) : presentedLine inp = presents inp := by
  rcases hc : inp.cmd with _ | (w | q)
  · simp [presentedLine, presents, hc]
  · simp [presentedLine, presents, hc, hr, firstLine, decodeCommand]
  · exact absurd hc (hq q)

/-- A step presents the line `enc.start` by an `ENC_START` or by a request without parameters (30_encoding R74). -/
theorem presentedLine_ne_encStart {inp : StepInput} (hr : inp.rst = false)
    (hp : ∀ id c n, presents inp ≠ some (.encStart id c n)) (hq : ∀ q, inp.cmd = some (.request q) → q.params ≠ [])
    (id cmd n : Byte) : presentedLine inp ≠ some (.encStart id cmd n) := by
  by_cases hreq : ∃ q, inp.cmd = some (.request q)
  · obtain ⟨q, hc⟩ := hreq
    obtain ⟨p, P, hP⟩ := List.exists_cons_of_ne_nil (hq q hc)
    simp [presentedLine, hc, firstLine, hP]
  · rw [presentedLine_of_no_request hr (not_exists.mp hreq)]
    exact hp id cmd n

/-- A step presents the line `enc.load` by an `ENC_LOAD` or by a request with parameters (30_encoding R74). -/
theorem presentedLine_ne_encLoad {inp : StepInput} (hr : inp.rst = false)
    (hp : ∀ k b, presents inp ≠ some (.encLoad k b)) (hq : ∀ q, inp.cmd = some (.request q) → q.params = [])
    (k b : Byte) : presentedLine inp ≠ some (.encLoad k b) := by
  by_cases hreq : ∃ q, inp.cmd = some (.request q)
  · obtain ⟨q, hc⟩ := hreq
    simp [presentedLine, hc, firstLine, hq q hc]
  · rw [presentedLine_of_no_request hr (not_exists.mp hreq)]
    exact hp k b

/-! ## The encoder's part of a command -/

/-- What a line writes of the encoder's registers: an accepted load or start its writes, a held one and every other
line nothing (41_packet_encoder R123, R124, 10_state R28, R34). -/
def encEffect (s : State) : Option Instr → State
  | some (.encLoad k b) => if s.encBusy then s else s.setPbufE k.toNat b
  | some (.encStart id cmd np) => if s.encBusy then s else startFrame s id cmd np
  | _ => s

section
variable {s : State} {l : Option Instr}

theorem encEffect_of_busy (hb : s.encBusy = true) : encEffect s l = s := by
  unfold encEffect
  split
  · exact if_pos hb
  · exact if_pos hb
  · rfl

theorem encEffect_of_other (hload : ∀ k b, l ≠ some (.encLoad k b))
    (hstart : ∀ id cmd np, l ≠ some (.encStart id cmd np)) : encEffect s l = s := by
  unfold encEffect
  split
  · exact absurd rfl (hload _ _)
  · exact absurd rfl (hstart _ _ _)
  · rfl

/-- Only a start writes `ENC_STATUS` (60_exceptions R204). -/
theorem encEffect_encStatus (hstart : ∀ id cmd np, l ≠ some (.encStart id cmd np)) :
    (encEffect s l).encStatus = s.encStatus := by
  unfold encEffect
  split
  · split <;> rfl
  · exact absurd rfl (hstart _ _ _)
  · rfl

/-- Only a load writes `PBUF_E` (41_packet_encoder R128). -/
theorem encEffect_pbufE (hload : ∀ k b, l ≠ some (.encLoad k b)) : (encEffect s l).pbufE = s.pbufE := by
  unfold encEffect
  split
  · exact absurd rfl (hload _ _)
  · split
    · rfl
    · exact (startFrame_frame ..).2.2.2
  · rfl

end

/-- The meaning of a load is its effect on the encoder (41_packet_encoder R123). -/
theorem exec_encLoad (k b : Byte) (s : State) :
    exec (.encLoad k b) s = .next (encEffect s (some (.encLoad k b))) := (apply_ite Host.Outcome.next ..).symm

/-- The meaning of a start is its effect on the encoder (41_packet_encoder R124). -/
theorem exec_encStart (id cmd np : Byte) (s : State) :
    exec (.encStart id cmd np) s = .next (encEffect s (some (.encStart id cmd np))) :=
  (apply_ite Host.Outcome.next ..).symm

/-- A command of the command port does to the encoder what its line does (10_state R34). -/
theorem exec_encoder {i : Instr} {w : Word} {s t : State} (hw : encodeWord i = some w) (h : exec i s = .next t) :
    SameEncoder (encEffect s (some i)) t := by
  cases i with
  | nop => cases h; exact SameEncoder.refl s
  | cuClr => cases h; simp [encEffect, SameEncoder]
  | cuAdd b => cases h; simp [encEffect, SameEncoder]
  | encLoad k b =>
    rw [exec_encLoad] at h
    cases h
    exact SameEncoder.refl _
  | encStart id cmd np =>
    rw [exec_encStart] at h
    cases h
    exact SameEncoder.refl _
  | decByte b =>
    cases h
    rw [receiveByte_frame]
    simp [encEffect, SameEncoder]
  | decEnd => cases h; simp [encEffect, SameEncoder]
  | framePing _ | frameRead _ _ _ | frameWrite _ _ _ _ => cases hw

/-- What a command presented does to the encoder is what its first line does (10_state R11, R34). -/
theorem runCommand_encoder {c : Command} {s u : State} (h : runCommand s c = .next u) :
    SameEncoder (encEffect s (firstLine c)) u := by
  cases c with
  | word w =>
    rcases runCommand_cases h with ⟨i, hd, he⟩ | ⟨q, e, hc, -⟩
    · have hd : decodeWord w = .instr i := hd
      simpa [firstLine, hd, Decoded.instr?] using exec_encoder (encodeWord_of_decodeWord hd) he
    · cases hc
  | request q =>
    rw [runCommand_request] at h
    rcases encFrame_cases q.id q.cmd q.params s with ⟨-, e⟩ | ⟨-, hb, e⟩ | ⟨hP, hb, e⟩ | ⟨p, P, hP, -, hb, e⟩ <;>
      rw [e] at h <;> cases h
    · rw [encEffect_of_busy hb]
      exact SameEncoder.refl s
    · simp [firstLine, hP, encEffect, hb, SameEncoder]
    · simp [firstLine, hP, encEffect, hb, SameEncoder]

end Sys2Proof.Machine

namespace Sys2Proof.Machine

/-! ## Each sub-unit's part of a step is a function of its own registers -/

theorem SameEncoder.symm {s t : State} (h : SameEncoder s t) : SameEncoder t s := by
  obtain ⟨hbusy, hpos, hid, hcmd, hnp, hacc, hst, hbuf⟩ := h
  exact ⟨hbusy.symm, hpos.symm, hid.symm, hcmd.symm, hnp.symm, hacc.symm, hst.symm, hbuf.symm⟩

theorem SameDecoder.symm {s t : State} (h : SameDecoder s t) : SameDecoder t s := by
  obtain ⟨hcnt, hbuf, hst, hid, hlen, herr, hnp, hchk, hpar⟩ := h
  exact ⟨hcnt.symm, hbuf.symm, hst.symm, hid.symm, hlen.symm, herr.symm, hnp.symm, hchk.symm, hpar.symm⟩

section
variable {s s' : State} (h : SameEncoder s s')
include h

/-- The frame byte is a function of the encoder's registers (41_packet_encoder R122). -/
theorem frameByte_congr : frameByte s = frameByte s' := by
  obtain ⟨-, hpos, hid, hcmd, hnp, hacc, -, hbuf⟩ := h
  simp only [frameByte, hpos, hid, hcmd, hnp, hacc, hbuf]

theorem atLastByte_congr : atLastByte s = atLastByte s' := by
  obtain ⟨-, hpos, -, -, hnp, -⟩ := h
  simp only [atLastByte, hpos, hnp]

/-- A start writes constants and its operands into the encoder (41_packet_encoder R124). -/
theorem SameEncoder.startFrame (id cmd np : Byte) :
    SameEncoder (startFrame s id cmd np) (startFrame s' id cmd np) := by
  obtain ⟨hbusy, hpos, hid, hcmd, hnp, hacc, hst, hbuf⟩ := h
  unfold Machine.startFrame
  split <;> simp [SameEncoder, *]

theorem SameEncoder.encEffect (l : Option Instr) : SameEncoder (encEffect s l) (encEffect s' l) := by
  cases hb : s.encBusy with
  | true =>
    rw [encEffect_of_busy hb, encEffect_of_busy (h.1 ▸ hb)]
    exact h
  | false =>
    have hb' : s'.encBusy = false := h.1 ▸ hb
    unfold Machine.encEffect
    split
    · obtain ⟨hbusy, hpos, hid, hcmd, hnp, hacc, hst, hbuf⟩ := h
      simp [SameEncoder, *]
    · simpa [hb, hb'] using h.startFrame _ _ _
    · exact h

/-- The emission part reads the encoder before the step and writes the encoder (41_packet_encoder R125). -/
theorem SameEncoder.emission {post post' : State} (hpost : SameEncoder post post') (r : Bool) :
    SameEncoder (emission s r post) (emission s' r post') := by
  have hframe := frameByte_congr h
  have hlast := atLastByte_congr h
  obtain ⟨hbusy, hpos, -, -, hnp, hacc, -⟩ := h
  unfold Machine.emission
  rw [← hbusy, ← hpos, ← hnp, ← hacc, ← hframe, ← hlast]
  split
  · obtain ⟨hbusy', -, hid, hcmd, hnp', hacc', hst, hbuf⟩ := hpost
    simp [SameEncoder, *]
  · exact hpost

end

/-- What a normal step does to the encoder: the presented line's writes, and the emission part on top (10_state R33,
R34). -/
theorem clock_encoder {inp : StepInput} {s t : State} (hr : inp.rst = false) (h : clock inp s = .next t) :
    SameEncoder (emission s inp.outReady (encEffect s (presentedLine inp))) t := by
  rcases clock_cases h with ⟨hrst, -⟩ | ⟨-, hc, rfl⟩ | ⟨-, c, u, hc, hrun, rfl⟩
  · simp [hr] at hrst
  · rw [presentedLine, hc]
    exact SameEncoder.refl _
  · rw [presentedLine, hc]
    exact (SameEncoder.refl s).emission (runCommand_encoder hrun) _

section
variable {s s' : State} (hcnt : s.rxCnt = s'.rxCnt)
  (hbuf : ∀ i, i < min s.rxCnt.toNat 259 → s.rxBuf.get i = s'.rxBuf.get i)
include hcnt hbuf

/-- The verdict reads the bytes counted and no others: the checksum is computed only where the count is a frame's
(42_packet_decoder R154). -/
theorem verdictHw_congr : verdictHw s = verdictHw s' := by
  have hL := (s'.rxBuf.get 3).isLt
  unfold verdictHw Config.frameMin
  rw [← hcnt]
  refine ite_congr rfl (fun _ => rfl) fun h6 => ?_
  rw [hbuf 0 (by omega), hbuf 1 (by omega), hbuf 3 (by omega), hbuf 4 (by omega)]
  refine ite_congr rfl (fun _ => rfl) fun _ => ite_congr rfl (fun _ => rfl) fun hlen => ?_
  have hslice : slice s.rxBuf.data 2 (s.rxCnt.toNat - 2) = slice s'.rxBuf.data 2 (s.rxCnt.toNat - 2) :=
    slice_congr (by rw [s.rxBuf.size]; omega) (by rw [s'.rxBuf.size]; omega) fun k _ hk => hbuf k (by omega)
  rw [hbuf _ (by omega), hslice]

/-- The result of a `DEC_END` is a function of `RXCNT` and the bytes counted (42_packet_decoder R154, R155). -/
theorem decResult_congr : decResult s = decResult s' := by
  have hv := verdictHw_congr hcnt hbuf
  cases hf : (verdictHw s).hasFields with
  | false => rw [decResult_discarded hf, decResult_discarded (hv ▸ hf), hv]
  | true =>
    obtain ⟨h6, -, -, hlen, -⟩ := verdictHw_hasFields hf
    have hL := (s.rxBuf.get 3).isLt
    have hnp : (s.rxBuf.get 3 - 2).toNat = (s.rxBuf.get 3).toNat - 2 :=
      BitVec.toNat_sub_of_le (show 2 ≤ (s.rxBuf.get 3).toNat by omega)
    have hparams : ∀ i, (if i < (s.rxBuf.get 3 - 2).toNat then s.rxBuf.get (5 + i) else 0x00) =
        if i < (s.rxBuf.get 3 - 2).toNat then s'.rxBuf.get (5 + i) else 0x00 :=
      fun i => ite_congr rfl (fun hi => hbuf _ (by omega)) fun _ => rfl
    simp only [decResult, ← hv, hf, if_true, hparams, ← hcnt]
    rw [hbuf 2 (by omega), hbuf 3 (by omega), hbuf 4 (by omega), hbuf _ (by omega)]

end

section
variable {s s' : State} (h : SameDecoder s s')
include h

theorem SameDecoder.receiveByte (b : Byte) : SameDecoder (receiveByte s b) (receiveByte s' b) := by
  have hcnt := h.1
  obtain ⟨-, hbuf, hst, hid, hlen, herr, hnp, hchk, hpar⟩ := h
  unfold Machine.receiveByte
  rw [← hcnt]
  split
  · simp [SameDecoder, *]
  · split <;> simp [SameDecoder, *]

theorem SameDecoder.decEnd :
    SameDecoder ((s.setResult (decResult s)).setRxCnt 0) ((s'.setResult (decResult s')).setRxCnt 0) := by
  obtain ⟨hcnt, hbuf, -⟩ := h
  rw [decResult_congr hcnt fun i _ => congrArg (·.get i) hbuf]
  simp [SameDecoder, hbuf]

/-- What a normal step does to the decoder is a function of the decoder's registers (60_exceptions R209). -/
theorem SameDecoder.clock {inp : StepInput} {t t' : State} (hr : inp.rst = false) (ht : clock inp s = .next t)
    (ht' : clock inp s' = .next t') : SameDecoder t t' := by
  have hd := clock_decoder hr ht
  have hd' := clock_decoder hr ht'
  split at hd
  · next b hp =>
    rw [hp] at hd'
    exact (hd.symm.trans (h.receiveByte b)).trans hd'
  · next hp =>
    rw [hp] at hd'
    exact (hd.symm.trans h.decEnd).trans hd'
  · next hbyte hend =>
    have hkeep : SameDecoder s' t' := by
      split at hd'
      · next b hp => exact absurd hp (hbyte b)
      · next hp => exact absurd hp hend
      · exact hd'
    exact (hd.symm.trans h).trans hkeep

end

/-- Settles O14: a reset leaves constants; in a normal step each unit's registers after the step are given by what they
were and by what the inputs present. -/
theorem subUnitsShareNoState : Obligations.SubUnitsShareNoState := by
  intro inp s s' t t' ht ht'
  cases hr : inp.rst with
  | true =>
    rw [clock_of_rst hr] at ht ht'
    cases ht
    cases ht'
    exact ⟨fun _ => rfl, fun _ => by simp [SameEncoder], fun _ => by simp [SameDecoder]⟩
  | false =>
    refine ⟨fun h => ?_, fun h => ?_, fun h => h.clock hr ht ht'⟩
    · rw [clock_cuAcc hr ht, clock_cuAcc hr ht', h]
    · exact ((clock_encoder hr ht).symm.trans (h.emission (h.encEffect _) _)).trans (clock_encoder hr ht')

/-! ## What a normal step leaves unchanged -/

/-- A step that presents neither a `DEC_BYTE` nor a `DEC_END` leaves the decoder (10_state R34). -/
theorem clock_sameDecoder {inp : StepInput} {s t : State} (hr : inp.rst = false) (hend : presents inp ≠ some .decEnd)
    (hbyte : ∀ b, presents inp ≠ some (.decByte b)) (h : clock inp s = .next t) : SameDecoder s t := by
  have hd := clock_decoder hr h
  split at hd
  · next b hp => exact absurd hp (hbyte b)
  · next hp => exact absurd hp hend
  · exact hd

/-- Settles O13: each unit's part of the step is the identity for every other command. -/
theorem normalStepLeavesOtherRegisters : Obligations.NormalStepLeavesOtherRegisters := by
  intro inp s t hr h
  refine ⟨fun hclr hadd => ?_, fun hend hbyte => clock_sameDecoder hr hend hbyte h, fun hload hstart hq hem => ?_⟩
  · rw [clock_cuAcc hr h]
    split
    · next hp => exact absurd hp hclr
    · next b hp => exact absurd hp (hadd b)
    · rfl
  · have henc := clock_encoder hr h
    have hkeep : ∀ u, emission s inp.outReady u = u := fun u => by simp [emission, hem]
    rw [← presentedLine_of_no_request hr hq] at hload hstart
    rwa [encEffect_of_other hload hstart, hkeep] at henc

/-- Settles O16: only a `DEC_END` writes `DEC_STATUS`, only a start `ENC_STATUS`, and emission neither. -/
theorem statusStaysUntilNextCommandOfItsKind : Obligations.StatusStaysUntilNextCommandOfItsKind := by
  intro inp s t hr h
  refine ⟨fun hend => ?_, fun hstart hq => ?_⟩
  · have hd := clock_decoder hr h
    split at hd
    · obtain ⟨-, -, hst, -⟩ := hd
      rw [← hst, receiveByte_frame]
    · next hp => exact absurd hp hend
    · obtain ⟨-, -, hst, -⟩ := hd
      exact hst.symm
  · obtain ⟨-, -, -, -, -, -, hst, -⟩ := clock_encoder hr h
    rw [← hst, emission_frame]
    exact encEffect_encStatus (presentedLine_ne_encStart hr hstart hq)

end Sys2Proof.Machine

namespace Sys2Proof.Machine

/-! ## Stale entries of `RXBUF` -/

/-- The same state with another `RXBUF`. -/
def State.withRxBuf (s : State) (b : ByteBuf 259) : State := { s with rxBuf := b }

section
variable {s t : State} (b : ByteBuf 259)

theorem startFrame_withRxBuf (id cmd np : Byte) :
    startFrame (s.withRxBuf b) id cmd np = (startFrame s id cmd np).withRxBuf b := by
  unfold startFrame
  split <;> rfl

theorem encEffect_withRxBuf (l : Option Instr) : encEffect (s.withRxBuf b) l = (encEffect s l).withRxBuf b := by
  have hbusy : (s.withRxBuf b).encBusy = s.encBusy := rfl
  unfold encEffect
  rw [hbusy]
  split
  · split <;> rfl
  · rw [startFrame_withRxBuf]
    split <;> rfl
  · rfl

theorem encFrame_withRxBuf {id cmd : Byte} {P : List Byte} (h : encFrame id cmd P s = .next t) :
    encFrame id cmd P (s.withRxBuf b) = .next (t.withRxBuf b) := by
  rcases encFrame_cases id cmd P s with ⟨-, e⟩ | ⟨hl, hb, e⟩ | ⟨rfl, hb, e⟩ | ⟨p, P', rfl, hl, hb, e⟩ <;>
    rw [e] at h <;> cases h
  · exact encFrame_of_held (s := s.withRxBuf b) id cmd hb hl
  · rw [encFrame_nil_of_idle id cmd (by exact hb), startFrame_withRxBuf]
  · exact encFrame_cons_of_idle (s := s.withRxBuf b) id cmd hb p (Nat.le_of_succ_le_succ hl)

/-- A command of the command port other than `DEC_BYTE` and `DEC_END` neither reads nor writes `RXBUF`
(10_state R34). -/
theorem exec_withRxBuf {i : Instr} {w : Word} (hw : encodeWord i = some w) (hbyte : ∀ x, i ≠ .decByte x)
    (hend : i ≠ .decEnd) (h : exec i s = .next t) : exec i (s.withRxBuf b) = .next (t.withRxBuf b) := by
  cases i with
  | nop | cuClr | cuAdd _ => cases h; rfl
  | encLoad k v =>
    rw [exec_encLoad] at h ⊢
    cases h
    rw [encEffect_withRxBuf]
  | encStart id cmd np =>
    rw [exec_encStart] at h ⊢
    cases h
    rw [encEffect_withRxBuf]
  | decByte x => exact absurd rfl (hbyte x)
  | decEnd => exact absurd rfl hend
  | framePing _ | frameRead _ _ _ | frameWrite _ _ _ _ => cases hw

theorem emission_withRxBuf (b' : ByteBuf 259) (r : Bool) :
    emission (s.withRxBuf b') r (t.withRxBuf b) = (emission s r t).withRxBuf b := by
  have hbusy : (s.withRxBuf b').encBusy = s.encBusy := rfl
  unfold emission
  rw [hbusy]
  split <;> rfl

end

section
variable {s s' : State} (h : SameButStaleRx s s')
include h

/-- A received byte is stored at the same place, and one more entry counts (42_packet_decoder R152). -/
theorem SameButStaleRx.receiveByte (x : Byte) : SameButStaleRx (receiveByte s x) (receiveByte s' x) := by
  obtain ⟨hs, hbuf⟩ := h
  have hcnt : s'.rxCnt = s.rxCnt := by rw [hs]
  unfold Machine.receiveByte Config.rxBufSize
  rw [hcnt]
  split
  · next hlt =>
    refine ⟨by rw [hs]; rfl, fun i hi => ?_⟩
    simp only [State.setRxCnt_rxCnt, rxCnt_succ_toNat hlt] at hi
    simp only [State.setRxCnt_rxBuf, State.setRxBuf_rxBuf]
    rcases eq_or_ne i s.rxCnt.toNat with rfl | hne
    · rw [ByteBuf.get_set_self _ _ hlt, ByteBuf.get_set_self _ _ hlt]
    · rw [ByteBuf.get_set_of_ne _ _ hne, ByteBuf.get_set_of_ne _ _ hne, hbuf i (by omega)]
  · split
    · exact ⟨by rw [hs]; rfl, fun i hi => hbuf i (by rw [State.setRxCnt_rxCnt] at hi; omega)⟩
    · exact ⟨hs, hbuf⟩

/-- A `DEC_END` reads the bytes counted, and then none counts (42_packet_decoder R154, R155). -/
theorem SameButStaleRx.decEnd :
    SameButStaleRx ((s.setResult (decResult s)).setRxCnt 0) ((s'.setResult (decResult s')).setRxCnt 0) := by
  obtain ⟨hs, hbuf⟩ := h
  have hcnt : s.rxCnt = s'.rxCnt := by rw [hs]
  rw [← decResult_congr hcnt fun i hi => (hbuf i hi).symm]
  exact ⟨by rw [hs]; rfl, fun i hi => absurd hi (Nat.not_lt_zero _)⟩

/-- Where the decoder's registers stay, the stale entries of the other state stay stale. -/
theorem SameButStaleRx.withRxBuf {u : State} (hdec : SameDecoder s u) : SameButStaleRx u (u.withRxBuf s'.rxBuf) := by
  obtain ⟨-, hbuf⟩ := h
  obtain ⟨hcnt, hrx, -⟩ := hdec
  exact ⟨rfl, fun i hi => hrx ▸ hbuf i (hcnt ▸ hi)⟩

/-- A command of the command port that answers a next state answers from the other state too, and the stale entries
stay stale. -/
theorem SameButStaleRx.exec {i : Instr} {w : Word} {u : State} (hw : encodeWord i = some w)
    (he : exec i s = .next u) : ∃ u', exec i s' = .next u' ∧ SameButStaleRx u u' := by
  have hs := h.1
  have hdec := exec_decoder he
  split at hdec
  · next b =>
    cases he
    exact ⟨_, rfl, h.receiveByte b⟩
  · cases he
    exact ⟨_, rfl, h.decEnd⟩
  · next hbyte hend =>
    refine ⟨u.withRxBuf s'.rxBuf, ?_, h.withRxBuf hdec⟩
    rw [hs]
    exact exec_withRxBuf _ hw hbyte hend he

/-- A command that answers a next state answers from the other state too, and the stale entries stay stale. -/
theorem SameButStaleRx.runCommand {c : Command} {u : State} (hrun : runCommand s c = .next u) :
    ∃ u', runCommand s' c = .next u' ∧ SameButStaleRx u u' := by
  have hs := h.1
  cases c with
  | request q =>
    rw [runCommand_request] at hrun ⊢
    obtain ⟨-, hdec, -⟩ := encFrame_frame hrun
    refine ⟨u.withRxBuf s'.rxBuf, ?_, h.withRxBuf hdec⟩
    rw [hs]
    exact encFrame_withRxBuf _ hrun
  | word w =>
    rcases runCommand_cases hrun with ⟨i, hd, he⟩ | ⟨q, e, hc, -⟩
    · rw [runCommand_of_decode hd]
      exact h.exec (encodeWord_of_decodeWord hd) he
    · cases hc

/-- The emission part neither reads nor writes `RXBUF` (41_packet_encoder R125). -/
theorem SameButStaleRx.emission {u u' : State} (hu : SameButStaleRx u u') (r : Bool) :
    SameButStaleRx (emission s r u) (emission s' r u') := by
  obtain ⟨hs, -⟩ := h
  obtain ⟨hu, hbuf⟩ := hu
  have he : Machine.emission s' r u' = (Machine.emission s r u).withRxBuf u'.rxBuf := by
    rw [hs, hu]
    exact emission_withRxBuf ..
  rw [he, emission_frame]
  exact ⟨rfl, hbuf⟩

end

/-- Settles O15: no output reads `RXBUF`; a step reads the entries that count, and writes the next one to count. -/
theorem staleRxEntriesAreUnobservable : Obligations.StaleRxEntriesAreUnobservable := by
  intro s s' h
  have hs := h.1
  refine ⟨by rw [hs]; rfl, fun c => by rw [hs]; cases c <;> rfl, fun inp t ht => ?_⟩
  rcases clock_cases ht with ⟨hr, rfl⟩ | ⟨hr, hc, rfl⟩ | ⟨hr, c, u, hc, hrun, rfl⟩
  · refine ⟨s'.resetRegs, clock_of_rst hr s', by rw [hs]; rfl, fun i hi => absurd hi (Nat.not_lt_zero _)⟩
  · exact ⟨_, by simp [clock, normalStep, hr, hc, withEmission], h.emission h _⟩
  · obtain ⟨u', hrun', hu⟩ := h.runCommand hrun
    exact ⟨_, by simp [clock, normalStep, hr, hc, hrun', withEmission], h.emission hu _⟩

/-! ## The bytes held -/

/-- A step that presents an instruction is no reset (10_state R32). -/
theorem rst_of_presents {inp : StepInput} {i : Instr} (h : presents inp = some i) : inp.rst = false := by
  by_contra hr
  simp [presents, hr] at h

/-- Settles O42: the reset and a `DEC_END` leave the count 0, and the decoder's part of a normal step is a received byte
or nothing. -/
theorem receivedBytesAreHeld : Obligations.ReceivedBytesAreHeld := by
  refine ⟨received_nil rfl, fun inp s t B h hc => ⟨fun hr => ?_, fun hend => ?_, fun b hbyte => ?_, ?_⟩⟩
  · rw [clock_of_rst hr] at hc
    cases hc
    exact received_nil rfl
  · have hd := clock_decoder (rst_of_presents hend) hc
    rw [hend] at hd
    exact received_nil hd.1.symm
  · have hd := clock_decoder (rst_of_presents hbyte) hc
    rw [hbyte] at hd
    exact (h.of_receiveByte b).congr hd
  · exact fun hr hend hbyte => h.congr (clock_sameDecoder hr hend hbyte hc)

end Sys2Proof.Machine

namespace Sys2Proof.Machine

/-! ## The outcome of a step -/

/-- A normal step that presents a command is its command part with the emission part on top (10_state R33). -/
theorem clock_of_cmd {inp : StepInput} {c : Command} (hr : inp.rst = false) (hc : inp.cmd = some c) (s : State) :
    clock inp s = withEmission s inp.outReady (runCommand s c) := by
  simp [clock, normalStep, hr, hc]

/-- A normal step without a command is the emission part (10_state R33). -/
theorem clock_of_no_cmd {inp : StepInput} (hr : inp.rst = false) (hc : inp.cmd = none) (s : State) :
    clock inp s = .next (emission s inp.outReady s) := by
  simp [clock, normalStep, hr, hc, withEmission]

/-- Every command of the command port has a next state, from every state (60_exceptions R200). -/
theorem exec_answers {i : Instr} {w : Word} (hw : encodeWord i = some w) (s : State) : ∃ t, exec i s = .next t := by
  cases i with
  | nop | cuClr | cuAdd _ | decByte _ | decEnd => exact ⟨_, rfl⟩
  | encLoad k b => exact ⟨_, exec_encLoad k b s⟩
  | encStart id cmd np => exact ⟨_, exec_encStart id cmd np s⟩
  | framePing _ | frameRead _ _ _ | frameWrite _ _ _ _ => cases hw

/-- A word of opcode 0 to 6 has a next state (10_state R32). -/
theorem runCommand_word_answers {w : Word} (h : w.toNat < 7 * 2 ^ 28) (s : State) :
    ∃ t, runCommand s (.word w) = .next t := by
  obtain ⟨i, hd⟩ := (decodeWord_instr_iff w).mpr h
  rw [runCommand_word hd]
  exact exec_answers (encodeWord_of_decodeWord hd) s

/-- A request has a next state as long as its parameter count is an operand (30_encoding R73). -/
theorem runCommand_request_answers {q : Request} (h : q.params.length ≤ 255) (s : State) :
    ∃ t, runCommand s (.request q) = .next t := by
  rw [runCommand_request]
  rcases encFrame_cases q.id q.cmd q.params s with ⟨hl, -⟩ | ⟨-, -, e⟩ | ⟨-, -, e⟩ | ⟨_, _, -, -, -, e⟩
  · omega
  · exact ⟨_, e⟩
  · exact ⟨_, e⟩
  · exact ⟨_, e⟩

/-- Settles O12: only the command part of a step can refuse, and it answers a next state for every other command. -/
theorem stepHasNextStateUnlessRefused : Obligations.StepHasNextStateUnlessRefused := by
  intro s
  unfold step
  have hemit : ∀ {pre : State} {r : Bool} {o}, (∃ u, o = .next u) → ∃ t, withEmission pre r o = .next t := by
    rintro pre r _ ⟨u, rfl⟩
    exact ⟨_, rfl⟩
  refine ⟨fun hr => ⟨_, clock_of_rst hr _⟩, fun hr hc => ⟨_, clock_of_no_cmd hr hc _⟩, fun w hr hc => ?_,
    fun q hr hc => ?_⟩ <;> rw [clock_of_cmd hr hc]
  · refine ⟨fun hw => hemit (runCommand_word_answers hw _), fun hw => ?_⟩
    rw [runCommand_word_of_reject (decodeWord_reserved (by omega))]
    rfl
  · refine ⟨fun hl => hemit (runCommand_request_answers hl _), fun hl => ?_⟩
    rw [runCommand_request, encFrame.eq_def, if_pos hl]
    rfl

/-- Settles O6: the script's first entry is what the step presents, and a command that decodes runs its instruction. -/
theorem stepRunsDecodedInstruction : Obligations.StepRunsDecodedInstruction := by
  rintro s c r rest i hs hd u rfl
  rw [step_present hs, clock_of_cmd rfl rfl, runCommand_of_decode hd]
  exact ⟨fun t h => by rw [h]; rfl, fun e h => by rw [h]; rfl⟩

/-! ## Repeated commands -/

/-- Writing an entry twice is writing it once. -/
theorem State.setPbufE_setPbufE (s : State) (k : Nat) (b : Byte) : (s.setPbufE k b).setPbufE k b = s.setPbufE k b := by
  simp [State.setPbufE, ByteBuf.set]

/-- A valid start latches its operands (41_packet_encoder R124). -/
theorem startFrame_of_valid {id np : Byte} (hid : id.toNat ≤ 253) (hnp : np.toNat ≤ 253) (s : State) (cmd : Byte) :
    startFrame s id cmd np = (s.latchFrame id cmd np).setEncStatus .accepted := by
  rcases startFrame_cases s id cmd np with ⟨h, -⟩ | ⟨-, h, -⟩ | ⟨-, -, e⟩
  · omega
  · omega
  · exact e

/-- A `DEC_END` on no bytes writes TRUNCATED_FRAME with every field 0 (42_packet_decoder R154, R155). -/
theorem decResult_of_empty {s : State} (h : s.rxCnt = 0) : decResult s = DecResult.discarded .truncatedFrame := by
  have hv : verdictHw s = .truncatedFrame := if_pos (by rw [h]; decide)
  rw [decResult_discarded (by rw [hv]; rfl), hv]

theorem exec_decEnd_of_empty {s : State} (h : s.rxCnt = 0) :
    exec .decEnd s = .next ((s.setResult (DecResult.discarded .truncatedFrame)).setRxCnt 0) := by
  rw [exec, execDecEnd, decResult_of_empty h]

/-- An `ENC_LOAD` repeated writes the same entry again, or is held again (20_memory R48). -/
theorem exec_encLoad_again {k b : Byte} {s t : State} (h : exec (.encLoad k b) s = .next t) :
    exec (.encLoad k b) t = .next t := by
  cases hb : s.encBusy with
  | true =>
    have hheld := exec_encLoad k b s
    rw [encEffect_of_busy hb] at hheld
    rw [hheld] at h
    cases h
    exact hheld
  | false =>
    rw [exec_encLoad_of_idle hb] at h
    cases h
    rw [exec_encLoad_of_idle (by exact hb), State.setPbufE_setPbufE]

/-- A received byte is counted, up to the count 260 (20_memory R48, 42_packet_decoder R152). -/
theorem receiveByte_ne_self {s : State} (hn : s.rxCnt.toNat < 260) (b : Byte) : receiveByte s b ≠ s := by
  intro h
  have hcnt : (receiveByte s b).rxCnt.toNat = s.rxCnt.toNat := by rw [h]
  rcases receiveByte_cases s b with ⟨hlt, e⟩ | ⟨heq, e⟩ | ⟨hge, -⟩
  · rw [e, State.setRxCnt_rxCnt, rxCnt_succ_toNat hlt] at hcnt
    omega
  · rw [e, State.setRxCnt_rxCnt, heq] at hcnt
    exact absurd hcnt (by decide)
  · omega

/-- Settles O17: each repeated write writes the same values, or a value that differs from the one before it. -/
theorem repeatedCommands : Obligations.RepeatedCommands := by
  refine ⟨fun i s t hi h => ?_, fun s t u ht hu => ?_, fun b s hb h => ?_, fun b s hn h => ?_,
    fun id cmd n s hb hid hn h => ?_⟩
  · rcases hi with rfl | rfl | ⟨k, b, rfl⟩
    · rfl
    · cases h
      rfl
    · exact exec_encLoad_again h
  · have h0 : t.rxCnt = 0 := by
      cases ht
      rfl
    rw [exec_decEnd_of_empty h0] at hu
    cases hu
    rw [exec_decEnd_of_empty rfl]
    rfl
  · have hacc : s.cuAcc + b = s.cuAcc := congrArg State.cuAcc (Host.Outcome.next.inj h)
    exact hb (BitVec.add_right_eq_self.mp hacc)
  · exact receiveByte_ne_self hn b (Host.Outcome.next.inj h)
  · rw [exec_encStart_of_idle hb, startFrame_of_valid hid hn] at h
    have hbusy : true = s.encBusy := congrArg State.encBusy (Host.Outcome.next.inj h)
    simp [hb] at hbusy

/-! ## One command word per step -/

/-- A line of the command port leaves `ENC_POS` or returns it to 0 (41_packet_encoder R124). -/
theorem encEffect_encPos (s : State) (l : Option Instr) :
    (encEffect s l).encPos = s.encPos ∨ (encEffect s l).encPos = 0 := by
  unfold encEffect
  split
  · split <;> exact .inl rfl
  · next id cmd np =>
    split
    · exact .inl rfl
    · rcases startFrame_cases s id cmd np with ⟨-, e⟩ | ⟨-, -, e⟩ | ⟨-, -, e⟩ <;> rw [e]
      · exact .inl rfl
      · exact .inl rfl
      · exact .inr rfl
  · exact .inl rfl

/-- In a step `ENC_POS` stays, advances by one or returns to 0 (10_state R16). -/
theorem clock_encPos {inp : StepInput} {s t : State} (h : clock inp s = .next t) :
    t.encPos = s.encPos ∨ t.encPos = s.encPos + 1 ∨ t.encPos = 0 := by
  cases hr : inp.rst with
  | true =>
    rw [clock_of_rst hr] at h
    cases h
    exact .inr (.inr rfl)
  | false =>
    obtain ⟨-, hpos, -⟩ := clock_encoder hr h
    rw [← hpos]
    rcases emission_cases s (encEffect s (presentedLine inp)) inp.outReady with ⟨-, e⟩ | ⟨-, -, e⟩ <;> rw [e]
    · exact (encEffect_encPos s _).imp_right .inr
    · change (if atLastByte s then 0 else s.encPos + 1) = _ ∨ _
      split
      · exact .inr (.inr rfl)
      · exact .inr (.inl rfl)

/-- In a step `RXCNT` stays, advances by one or returns to 0 (10_state R21). -/
theorem clock_rxCnt {inp : StepInput} {s t : State} (h : clock inp s = .next t) :
    t.rxCnt = s.rxCnt ∨ t.rxCnt = s.rxCnt + 1 ∨ t.rxCnt = 0 := by
  cases hr : inp.rst with
  | true =>
    rw [clock_of_rst hr] at h
    cases h
    exact .inr (.inr rfl)
  | false =>
    have hd := clock_decoder hr h
    split at hd
    · next b _ =>
      rw [← hd.1]
      rcases receiveByte_cases s b with ⟨-, e⟩ | ⟨heq, e⟩ | ⟨-, e⟩ <;> rw [e]
      · exact .inr (.inl rfl)
      · have hcnt : s.rxCnt = 259 := BitVec.eq_of_toNat_eq heq
        rw [hcnt]
        exact .inr (.inl rfl)
      · exact .inl rfl
    · exact .inr (.inr hd.1.symm)
    · exact .inl hd.1.symm

/-- The lines of a request, assembled, are its words (30_encoding R73, R74). -/
theorem hostActs_encFrameLines (r : Bool) {q : Request} (hl : q.params.length ≤ 255) :
    hostActs r ((encFrameLines q.id.toNat q.cmd.toNat (q.params.map BitVec.toNat)).map .line) =
      some ((frameWords q.id q.cmd (BitVec.ofNat 8 q.params.length) 0 q.params).map fun w => .present (.word w) r) := by
  rw [encFrameLines_eq]
  exact hostActs_frameLines r q.id q.cmd (by omega) q.params 0 (by omega)

/-- From an idle encoder a request runs as the first word of its lines, with the others in the script (10_state R11,
30_encoding R74). -/
theorem runCommand_request_of_idle {q : Request} (hl : q.params.length ≤ 255) :
    ∃ w ws, frameWords q.id q.cmd (BitVec.ofNat 8 q.params.length) 0 q.params = w :: ws ∧
      ∀ s : State, s.encBusy = false →
        runCommand s (.request q) =
          runCommand (s.setHost (ws.map (fun w => .present (.word w) false) ++ s.host)) (.word w) := by
  obtain ⟨id, cmd, P⟩ := q
  cases P with
  | nil =>
    refine ⟨packWord 4 id cmd 0, [], rfl, fun s hb => ?_⟩
    rw [runCommand_request, runCommand_word (decodeWord_of_encodeWord (i := .encStart id cmd 0) rfl),
      exec_encStart_of_idle (by exact hb), encFrame_nil_of_idle id cmd hb]
    rfl
  | cons p P =>
    refine ⟨packWord 3 0 0 p, frameWords id cmd (BitVec.ofNat 8 (p :: P).length) 1 P, rfl, fun s hb => ?_⟩
    rw [runCommand_request, runCommand_word (decodeWord_of_encodeWord (i := .encLoad 0 p) rfl),
      exec_encLoad_of_idle (by exact hb), encFrame_cons_of_idle id cmd hb p (Nat.le_of_succ_le_succ hl)]
    rfl

/-- Settles O7: the command part of a request is that of its first word, with the other words in the script; a held one
changes nothing. -/
theorem oneCommandWordPerStep : Obligations.OneCommandWordPerStep := by
  refine ⟨fun s q r hl => ?_, fun inp s t h => ⟨clock_encPos h, clock_rxCnt h⟩⟩
  obtain ⟨w, ws, hwords, hrun⟩ := runCommand_request_of_idle hl
  refine ⟨w, ws.map fun w => .present (.word w) false, by rw [hostActs_encFrameLines false hl, hwords]; rfl, ?_⟩
  split
  · next hb =>
    have hheld : runCommand s (.request q) = .next s := by
      rw [runCommand_request, encFrame_of_held q.id q.cmd hb hl]
    exact clock_of_runCommand_self hheld r
  · next hb =>
    rw [Bool.not_eq_true] at hb
    rw [clock_idle hb, clock_idle (by exact hb)]
    exact hrun s hb

end Sys2Proof.Machine

namespace Sys2Proof.Machine

/-! ## The frame in flight -/

theorem emission_of_idle {pre : State} (hb : pre.encBusy = false) (r : Bool) (post : State) :
    emission pre r post = post := by
  simp [emission, hb]

/-- What a normal step does to a busy encoder is the emission part (10_state R28, R33). -/
theorem clock_encoder_of_busy {inp : StepInput} {s t : State} (hb : s.encBusy = true) (hr : inp.rst = false)
    (h : clock inp s = .next t) : SameEncoder (emission s inp.outReady s) t := by
  have henc := clock_encoder hr h
  rwa [encEffect_of_busy hb] at henc

/-- What a normal step does to an idle encoder is what the presented line does (10_state R33). -/
theorem clock_encoder_of_idle {inp : StepInput} {s t : State} (hb : s.encBusy = false) (hr : inp.rst = false)
    (h : clock inp s = .next t) : SameEncoder (encEffect s (presentedLine inp)) t := by
  have henc := clock_encoder hr h
  rwa [emission_of_idle hb] at henc

/-- The frame in flight is a function of the latched operands and `PBUF_E` (41_packet_encoder R127). -/
theorem frameInFlight_congr {s t : State} (hid : t.encId = s.encId) (hcmd : t.encCmd = s.encCmd)
    (hnp : t.encNp = s.encNp) (hbuf : t.pbufE = s.pbufE) : frameInFlight t = frameInFlight s := by
  simp only [frameInFlight, frameParams, hid, hcmd, hnp, hbuf]

theorem SameEncoder.frameInFlight {s t : State} (h : SameEncoder s t) : frameInFlight t = frameInFlight s := by
  obtain ⟨-, -, hid, hcmd, hnp, -, -, hbuf⟩ := h
  exact frameInFlight_congr hid.symm hcmd.symm hnp.symm hbuf.symm

/-- Settles O32: a busy encoder sees the emission part only, which writes neither an operand nor `PBUF_E`. -/
theorem frameInFlightCannotChange : Obligations.FrameInFlightCannotChange := by
  intro inp s t hb hr h
  obtain ⟨-, -, hid, hcmd, hnp, -, -, hbuf⟩ := clock_encoder_of_busy hb hr h
  rw [emission_frame] at hid hcmd hnp hbuf
  exact ⟨hid.symm, hcmd.symm, hnp.symm, hbuf.symm, frameInFlight_congr hid.symm hcmd.symm hnp.symm hbuf.symm⟩

/-- What every step of a run keeps, the run keeps. -/
theorem clockAll_keeps {P : State → Prop} {inps : List StepInput}
    (hstep : ∀ inp ∈ inps, ∀ u v, P u → clock inp u = .next v → P v) {s t : State} (hs : P s)
    (h : clockAll inps s = .next t) : P t := by
  induction inps generalizing s with
  | nil =>
    cases h
    exact hs
  | cons inp inps ih =>
    obtain ⟨u, hu, ht⟩ := clockAll_cons_next h
    obtain ⟨hfirst, hrest⟩ := List.forall_mem_cons.mp hstep
    exact ih hrest (hfirst s u hs hu) ht

/-- Settles O36: each step without `out_ready` holds the encoder as it is. -/
theorem noReadyHangsEncoder : Obligations.NoReadyHangsEncoder := by
  intro inps s t hb hin h
  have hheld : SameEncoder s t ∧ t.taken = s.taken := by
    refine clockAll_keeps (P := fun u => SameEncoder s u ∧ u.taken = s.taken) (fun inp hi u v hu hv => ?_)
      ⟨SameEncoder.refl s, rfl⟩ h
    obtain ⟨henc, htaken⟩ := hu
    obtain ⟨hr, ho⟩ := hin inp hi
    obtain ⟨henc', -, htaken'⟩ := encoderHoldsWithoutReady inp u v (henc.1 ▸ hb) hr ho hv
    exact ⟨henc.trans henc', htaken'.trans htaken⟩
  obtain ⟨henc, htaken⟩ := hheld
  have hbusy : t.encBusy = true := henc.1 ▸ hb
  exact ⟨henc, hbusy, htaken, fun w hop => (wordReady_eq_false_iff t w).mpr ⟨hbusy, hop⟩⟩

/-- A frame started with the same operands from the same `PBUF_E` is the same frame (41_packet_encoder R128). -/
theorem frameInFlight_latched (s : State) (id cmd np : Byte) :
    frameInFlight ((s.latchFrame id cmd np).setEncStatus .accepted) =
      frameOf (frameBody id cmd (s.pbufE.data.take np.toNat)) := rfl

/-- A step that presents no load leaves `PBUF_E` (10_state R34). -/
theorem clock_pbufE {inp : StepInput} {s t : State} (hr : inp.rst = false)
    (hload : ∀ k b, presentedLine inp ≠ some (.encLoad k b)) (h : clock inp s = .next t) : t.pbufE = s.pbufE := by
  obtain ⟨-, -, -, -, -, -, -, hbuf⟩ := clock_encoder hr h
  rw [← hbuf, emission_frame]
  exact encEffect_pbufE hload

/-- Settles O37: only a load writes `PBUF_E`, and a start latches a frame that depends on it and the operands alone. -/
theorem parameterBufferPersists : Obligations.ParameterBufferPersists := by
  intro inps s t hin h
  have hbuf : t.pbufE = s.pbufE := by
    refine clockAll_keeps (P := fun u => u.pbufE = s.pbufE) (fun inp hi u v hu hv => ?_) rfl h
    obtain ⟨hr, hload, hq⟩ := hin inp hi
    exact (clock_pbufE hr (presentedLine_ne_encLoad hr hload hq) hv).trans hu
  refine ⟨hbuf, fun id cmd n s' t' hs ht hid hn hs' ht' => ?_⟩
  rw [exec_encStart_of_idle hs, startFrame_of_valid hid hn] at hs'
  rw [exec_encStart_of_idle ht, startFrame_of_valid hid hn] at ht'
  cases hs'
  cases ht'
  rw [frameInFlight_latched, frameInFlight_latched, hbuf]

/-- Settles O34: `ENC_START` and `build` make the same two tests in the same order. -/
theorem startStatusIsBuildOutcome : Obligations.StartStatusIsBuildOutcome := by
  intro s id cmd n P hb hP
  refine ⟨_, exec_encStart_of_idle hb id cmd n, ?_⟩
  obtain ⟨houtcome, -⟩ := buildOutcomes
  obtain ⟨hnp, hid, hframe⟩ := houtcome id cmd P
  rcases startFrame_cases s id cmd n with ⟨h1, e⟩ | ⟨h1, h2, e⟩ | ⟨h1, h2, e⟩ <;> rw [e]
  · rw [hnp (by omega)]
    exact ⟨rfl, by simp [hb]⟩
  · rw [hid (by omega) h2]
    exact ⟨rfl, by simp [hb]⟩
  · rw [hframe (by omega) h2]
    exact ⟨rfl, by simp⟩

/-! ## The encoder's invariant -/

theorem length_frameParams (s : State) : (frameParams s).length = s.encNp.toNat := by
  have := s.encNp.isLt
  rw [frameParams, List.length_take, s.pbufE.size]
  omega

theorem length_frameInFlight (s : State) : (frameInFlight s).length = s.encNp.toNat + 6 := by
  rw [frameInFlight, length_frameOf, length_frameBody, length_frameParams]

theorem EncInv.congr {s t : State} (h : EncInv s) (henc : SameEncoder s t) : EncInv t := by
  have hF := henc.frameInFlight
  obtain ⟨hbusy, hpos, hid, -, hnp, hacc, -, -⟩ := henc
  unfold EncInv
  rw [hF, ← hbusy, ← hpos, ← hid, ← hnp, ← hacc]
  exact h

/-- The byte the encoder offers is the frame's byte at `ENC_POS` (41_packet_encoder R122, R127). -/
theorem frameByte_eq_byteAt {s : State} (h : EncInv s) (hb : s.encBusy = true) :
    frameByte s = byteAt (frameInFlight s) s.encPos.toNat := by
  obtain ⟨-, -, -, hbusy⟩ := h
  obtain ⟨hpos, hacc⟩ := hbusy hb
  have hlen := length_frameParams s
  obtain ⟨h0, h1, h2, h3, h4, hparams, hchk⟩ := byteAt_frameOf s.encId s.encCmd (frameParams s)
  rw [hlen] at h3 hparams hchk
  generalize hp : s.encPos.toNat = p at hpos hacc
  have hcases : p = 0 ∨ p = 1 ∨ p = 2 ∨ p = 3 ∨ p = 4 ∨ (5 ≤ p ∧ p ≤ s.encNp.toNat + 4) ∨ p = s.encNp.toNat + 5 := by
    omega
  rcases hcases with rfl | rfl | rfl | rfl | rfl | ⟨h5, hn⟩ | rfl
  · exact (frameByte_header (.inl hp)).trans h0.symm
  · exact (frameByte_header (.inr hp)).trans h1.symm
  · exact (frameByte_id hp).trans h2.symm
  · refine (frameByte_length hp).trans (Eq.trans ?_ h3.symm)
    rw [BitVec.ofNat_add, BitVec.ofNat_toNat, BitVec.setWidth_eq]
    rfl
  · exact (frameByte_cmd hp).trans h4.symm
  · have hk := hparams (p - 5) (by omega)
    rw [Nat.add_sub_cancel' h5, frameParams, byteAt_take (by omega)] at hk
    rw [frameByte_param (by omega) (by omega), hp]
    exact hk.symm
  · rw [frameByte_checksum hp, hacc, ← checksum_eq_not_sum8]
    refine Eq.trans (congrArg checksum ?_) hchk.symm
    have hbody := slice_frameOf s.encId s.encCmd (frameParams s)
    rwa [hlen] at hbody

/-- Over an emitted byte the sum of the body bytes goes on, from the ID on (41_packet_encoder R125). -/
theorem byteSum8_slice_step {F : List Byte} {p : Nat} (hp : p < F.length) :
    byteSum8 (slice F 2 p) =
      if 2 ≤ p then byteSum8 (slice F 2 (p - 1)) + byteAt F p else byteSum8 (slice F 2 (p - 1)) := by
  split
  · next h2 =>
    obtain ⟨q, rfl⟩ : ∃ q, p = q + 1 := ⟨p - 1, by omega⟩
    rw [slice_succ (by omega) hp, byteSum8_concat, Nat.add_sub_cancel]
  · rw [slice_of_lt (by omega), slice_of_lt (by omega)]

/-- The emission part keeps the encoder's invariant (41_packet_encoder R125, R127). -/
theorem EncInv.emission {s : State} (h : EncInv s) (r : Bool) : EncInv (emission s r s) := by
  rcases emission_cases s s r with ⟨-, e⟩ | ⟨hb, -, e⟩
  · rwa [e]
  have hbyte := frameByte_eq_byteAt h hb
  obtain ⟨hid, hnp, -, hbusy⟩ := h
  obtain ⟨hpos, hacc⟩ := hbusy hb
  have hF : frameInFlight (Machine.emission s r s) = frameInFlight s := by
    rw [emission_frame]
    rfl
  unfold EncInv
  rw [hF, e]
  refine ⟨hid, hnp, fun hidle => ?_, fun hstill => ?_⟩
  · have hlast : atLastByte s = true := by simpa [hb] using hidle
    exact if_pos hlast
  · have hlast : ¬atLastByte s = true := fun hlast => by simp [hlast] at hstill
    have hne := mt (atLastByte_iff s).mpr hlast
    have hsucc : (s.encPos + 1).toNat = s.encPos.toNat + 1 := BitVec.toNat_add_of_lt (show _ + 1 < 512 by omega)
    have hlen := length_frameInFlight s
    simp only [if_neg hlast, hsucc, Nat.add_sub_cancel]
    rw [byteSum8_slice_step (by omega), ← hacc, hbyte]
    refine ⟨by omega, ?_⟩
    exact if_congr (by omega) rfl rfl

/-- A valid start meets the encoder's invariant: no byte has been emitted (41_packet_encoder R124). -/
theorem encInv_latched {id np : Byte} (hid : id.toNat ≤ 253) (hnp : np.toNat ≤ 253) (s : State) (cmd : Byte) :
    EncInv ((s.latchFrame id cmd np).setEncStatus .accepted) := by
  refine ⟨hid, hnp, fun hb => Bool.noConfusion (show true = false from hb), fun _ => ⟨Nat.zero_le _, ?_⟩⟩
  exact congrArg byteSum8 (slice_of_lt (show 0 - 1 < 2 by decide)).symm

/-- A line keeps the encoder's invariant: a valid start begins at position 0 (41_packet_encoder R124). -/
theorem EncInv.encEffect {s : State} (h : EncInv s) (l : Option Instr) : EncInv (encEffect s l) := by
  cases hb : s.encBusy with
  | true => rwa [encEffect_of_busy hb]
  | false =>
    have hidle : ∀ {u : State}, u.encBusy = false → u.encId = s.encId → u.encNp = s.encNp → u.encPos = s.encPos →
        EncInv u := fun hub hid hnp hpos => by
      obtain ⟨hid', hnp', hpos', -⟩ := h
      exact ⟨hid ▸ hid', hnp ▸ hnp', fun _ => hpos ▸ hpos' hb, fun hub' => by simp [hub] at hub'⟩
    unfold Machine.encEffect
    split
    · rw [if_neg (by simp [hb])]
      exact hidle hb rfl rfl rfl
    · next id cmd np =>
      rw [if_neg (by simp [hb])]
      rcases startFrame_cases s id cmd np with ⟨-, e⟩ | ⟨-, -, e⟩ | ⟨hnp, hid, e⟩ <;> rw [e]
      · exact hidle hb rfl rfl rfl
      · exact hidle hb rfl rfl rfl
      · exact encInv_latched hid hnp s cmd
    · exact h

theorem encInv_reset : EncInv State.reset :=
  ⟨by decide, by decide, fun _ => rfl, fun hb => by cases hb⟩

/-- Every step keeps the encoder's invariant. -/
theorem EncInv.clock {inp : StepInput} {s t : State} (h : EncInv s) (hc : clock inp s = .next t) : EncInv t := by
  cases hr : inp.rst with
  | true =>
    rw [clock_of_rst hr] at hc
    cases hc
    exact encInv_reset.congr (by simp [SameEncoder])
  | false =>
    cases hb : s.encBusy with
    | true => exact (h.emission _).congr (clock_encoder_of_busy hb hr hc)
    | false => exact (h.encEffect _).congr (clock_encoder_of_idle hb hr hc)

/-! ## The decoder's invariant -/

theorem DecInv.congr {s t : State} (h : DecInv s) (hdec : SameDecoder s t) : DecInv t := by
  obtain ⟨hcnt, -, hst, hid, hlen, herr, hnp, hchk, hpar⟩ := hdec
  unfold DecInv
  rw [← hcnt, ← hst, ← hid, ← hlen, ← herr, ← hnp, ← hchk, ← hpar]
  exact h

/-- Every buffer with a count up to 260 holds some bytes received (10_state R21, R22). -/
theorem exists_received {s : State} (h : s.rxCnt.toNat ≤ 260) : ∃ B, Received s B := by
  have hsize := s.rxBuf.size
  have hlen : ((s.rxBuf.data ++ [0]).take s.rxCnt.toNat).length = s.rxCnt.toNat := by
    rw [List.length_take, List.length_append, hsize, List.length_singleton]
    omega
  refine ⟨(s.rxBuf.data ++ [0]).take s.rxCnt.toNat, by omega, fun i hi => ?_⟩
  rw [byteAt_take (by omega), byteAt_append_left (by omega)]
  rfl

/-- The fields of a structurally valid buffer are those of the frame it is (42_packet_decoder R150). -/
theorem eq_frameFields_of_parse {B : List Byte} {f : Fields} (h : parse B = .ok f ∨ parse B = .servoFault f) :
    f = frameFields f.id f.err f.params := by
  obtain ⟨-, -, -, -, -, hf, -⟩ := parse_fields h
  obtain ⟨hB, -⟩ := eq_frameOf_of_parse h
  conv_lhs => rw [hf, hB]
  exact fieldsOf_frameOf ..

/-- The verdict with fields is OK exactly when the error byte is 0 (42_packet_decoder R150). -/
theorem parse_eq_ok_iff {B : List Byte} {f : Fields} (h : parse B = .ok f ∨ parse B = .servoFault f) :
    parse B = .ok f ↔ f.err = 0 := by
  obtain ⟨-, -, -, -, -, hf, hparse⟩ := parse_fields h
  have herr : f.err = byteAt B 4 := by rw [hf]; rfl
  rw [hparse, herr]
  split
  · next h4 => exact ⟨fun h => (by cases h), fun h => absurd h h4⟩
  · next h4 => exact ⟨fun _ => not_not.mp h4, fun _ => rfl⟩

/-- What registers that hold the outcome of a `parse` with fields hold (42_packet_decoder R155, R156). -/
theorem HoldsParse.fields {s : State} {B : List Byte} {f : Fields} (h : HoldsParse s (parse B))
    (hp : parse B = .ok f ∨ parse B = .servoFault f) :
    s.decStatus.hasFields = true ∧ (s.decStatus = .ok ↔ f.err = 0) ∧ s.decId = f.id ∧ s.decLen = f.len ∧
      s.decErr = f.err ∧ s.decNp.toNat = f.params.length ∧ s.decChk = f.chk ∧
      ∀ i, s.pbufD.get i = byteAt f.params i := by
  rw [← parse_eq_ok_iff hp]
  rcases hp with hp | hp <;> rw [hp] at h ⊢ <;> obtain ⟨hst, hres⟩ := h <;> rw [hst]
  · exact ⟨rfl, by simp [Parsed.status], hres⟩
  · exact ⟨rfl, by simp [Parsed.status], hres⟩

/-- The fields of a structurally valid frame meet the decoder's invariant (10_state R24, R25, 42_packet_decoder
R151). -/
theorem HoldsParse.decInv_of_fields {s : State} {B : List Byte} {f : Fields} (h : HoldsParse s (parse B))
    (hcnt : s.rxCnt.toNat ≤ 260) (hp : parse B = .ok f ∨ parse B = .servoFault f) : DecInv s := by
  obtain ⟨-, hP⟩ := eq_frameOf_of_parse hp
  have hframe := eq_frameFields_of_parse hp
  obtain ⟨hfields, hok, hid, hlen, herr, hnp, hchk, hpar⟩ := h.fields hp
  have htake : s.pbufD.data.take s.decNp.toNat = f.params := by
    have hsize := s.pbufD.size
    refine List.ext_getElem (by rw [List.length_take]; omega) fun i h1 h2 => ?_
    have hi := hpar i
    rw [ByteBuf.get_eq_getElem _ (by omega), byteAt, List.getD_eq_getElem _ _ h2] at hi
    rwa [List.getElem_take]
  refine ⟨hcnt, fun hno => by simp [hfields] at hno, fun _ => ⟨by omega, ?_, herr.symm ▸ hok, fun i hi => ?_, ?_⟩⟩
  · have hlen' : f.len = BitVec.ofNat 8 (f.params.length + 2) := congrArg Fields.len hframe
    rw [hlen, hnp, hlen', BitVec.toNat_ofNat]
    exact Nat.mod_eq_of_lt (by omega)
  · rw [hpar, byteAt_of_length_le (by omega)]
  · have hchk' := congrArg Fields.chk hframe
    simp only [frameFields] at hchk'
    rw [hchk, hid, herr, htake, hchk']

/-- The outcome of a `parse` meets the decoder's invariant (10_state R24, R25, 42_packet_decoder R151). -/
theorem HoldsParse.decInv {s : State} {B : List Byte} (h : HoldsParse s (parse B)) (hcnt : s.rxCnt.toNat ≤ 260) :
    DecInv s := by
  cases hp : parse B with
  | ok f => exact h.decInv_of_fields hcnt (.inl hp)
  | servoFault f => exact h.decInv_of_fields hcnt (.inr hp)
  | framingError | truncatedFrame | checksumError =>
    rw [hp] at h
    obtain ⟨hst, hres⟩ := h
    refine ⟨hcnt, fun _ => hres, fun hf => ?_⟩
    rw [hst] at hf
    cases hf

theorem decInv_reset : DecInv State.reset :=
  ⟨by decide, fun _ => ⟨rfl, rfl, rfl, rfl, rfl, rfl⟩, fun h => by cases h⟩

/-- A received byte keeps the count at most 260 and the result registers as they are (42_packet_decoder R152). -/
theorem DecInv.receiveByte {s : State} (h : DecInv s) (b : Byte) : DecInv (receiveByte s b) := by
  obtain ⟨hcnt, hres⟩ := h
  rcases receiveByte_cases s b with ⟨hlt, e⟩ | ⟨-, e⟩ | ⟨-, e⟩ <;> rw [e]
  · refine ⟨?_, hres⟩
    rw [State.setRxCnt_rxCnt, rxCnt_succ_toNat hlt]
    omega
  · exact ⟨Nat.le_refl 260, hres⟩
  · exact ⟨hcnt, hres⟩

/-- Every step keeps the decoder's invariant. -/
theorem DecInv.clock {inp : StepInput} {s t : State} (h : DecInv s) (hc : clock inp s = .next t) : DecInv t := by
  cases hr : inp.rst with
  | true =>
    rw [clock_of_rst hr] at hc
    cases hc
    exact decInv_reset.congr (by simp [SameDecoder])
  | false =>
    have hd := clock_decoder hr hc
    split at hd
    · exact (h.receiveByte _).congr hd
    · obtain ⟨B, hB⟩ := exists_received h.1
      exact ((holdsParse_decEnd hB).decInv (Nat.zero_le _)).congr hd
    · exact h.congr hd

/-- Settles O10: in the reset state the encoder is idle at position 0 and every register of the result is 0. -/
theorem resetStateMeetsInvariant : Obligations.ResetStateMeetsInvariant := ⟨encInv_reset, decInv_reset⟩

/-- Settles O11: a step is one of `clock` from a state with the same registers, which keeps each unit's invariant. -/
theorem everyStepKeepsInvariant : Obligations.EveryStepKeepsInvariant := by
  rintro s t ⟨henc, hdec⟩ h
  have henc' : EncInv (s.setHost (remaining s)) := henc
  have hdec' : DecInv (s.setHost (remaining s)) := hdec
  exact ⟨henc'.clock h, hdec'.clock h⟩

end Sys2Proof.Machine

namespace Sys2Proof.Machine

/-! ## A frame, emitted -/

theorem length_outBytes (F : List Byte) : (outBytes F).length = F.length := List.length_mapIdx

/-- The first bytes of a frame, one more (41_packet_encoder R127). -/
theorem take_succ_outBytes {F : List Byte} {k : Nat} (hk : k < F.length) :
    (outBytes F).take (k + 1) = (outBytes F).take k ++ [⟨byteAt F k, k + 1 == F.length⟩] := by
  rw [List.take_succ_eq_append_getElem (by rwa [length_outBytes])]
  simp [outBytes, byteAt, hk]

/-- `k` bytes of the frame `F` have been taken after those in `before`: they are its first `k`, and while some are left
the encoder is busy with `F` at position `k` (41_packet_encoder R127). -/
structure Emitted (before : List OutByte) (F : List Byte) (k : Nat) (t : State) : Prop where
  taken : k ≤ F.length → t.taken = before ++ (outBytes F).take k
  inFlight : k < F.length → t.encBusy = true ∧ t.encPos.toNat = k ∧ EncInv t ∧ frameInFlight t = F

section
variable {before : List OutByte} {t u : State} {F : List Byte} {k : Nat} {inp : StepInput}

/-- What a busy encoder at position `k` of `F` offers (41_packet_encoder R122, R127). -/
theorem Emitted.offered (h : Emitted before F k t) (hk : k < F.length) :
    t.outputs.encOutByte = byteAt F k ∧ t.outputs.encOutLast = (k + 1 == F.length) := by
  obtain ⟨hb, hpos, hinv, hF⟩ := h.inFlight hk
  have hlen := length_frameInFlight t
  rw [hF] at hlen
  refine ⟨?_, ?_⟩
  · rw [outputs_encOutByte_of_busy hb, frameByte_eq_byteAt hinv hb, hF, hpos]
  · rw [outputs_encOutLast_of_busy hb, atLastByte, hpos, hlen]
    exact decide_eq_decide.mpr (by omega)

/-- A step without `out_ready` takes no byte (41_packet_encoder R126). -/
theorem Emitted.hold (h : Emitted before F k t) (hr : inp.rst = false) (ho : inp.outReady = false)
    (hc : clock inp t = .next u) : Emitted before F k u := by
  refine ⟨fun hk => ?_, fun hk => ?_⟩
  · rw [clock_taken hc, if_neg (by simp [ho]), h.taken hk]
  · obtain ⟨hb, hpos, hinv, hF⟩ := h.inFlight hk
    obtain ⟨henc, -, -⟩ := encoderHoldsWithoutReady inp t u hb hr ho hc
    obtain ⟨hbusy, hpos', -⟩ := id henc
    exact ⟨hbusy ▸ hb, hpos' ▸ hpos, hinv.congr henc, henc.frameInFlight.trans hF⟩

/-- A step with `out_ready` takes the next byte (41_packet_encoder R125). -/
theorem Emitted.emit (h : Emitted before F k t) (hr : inp.rst = false) (ho : inp.outReady = true)
    (hc : clock inp t = .next u) : Emitted before F (k + 1) u := by
  refine ⟨fun hk => ?_, fun hk => ?_⟩
  · obtain ⟨hb, -⟩ := h.inFlight hk
    obtain ⟨hbyte, hlast⟩ := h.offered hk
    rw [clock_taken hc, if_pos ⟨hr, hb, ho⟩, hbyte, hlast, h.taken (Nat.le_of_succ_le hk), List.append_assoc,
      ← take_succ_outBytes hk]
  · obtain ⟨hb, hpos, hinv, hF⟩ := h.inFlight (Nat.lt_of_succ_lt hk)
    have hlen := length_frameInFlight t
    rw [hF] at hlen
    obtain ⟨hstep, -⟩ := emissionStepAdvancesFrame t hb
    obtain ⟨-, hbusy, hpos', -⟩ := hstep inp u hr ho hc
    obtain ⟨-, -, -, -, hF'⟩ := frameInFlightCannotChange inp t u hb hr hc
    rw [if_neg (by omega)] at hbusy hpos'
    refine ⟨hbusy, ?_, hinv.clock hc, hF'.trans hF⟩
    rw [hpos', BitVec.toNat_add_of_lt (show _ + 1 < 512 by omega), hpos]
    rfl

/-- The step that takes the last byte leaves the encoder idle, with the sum of the body (41_packet_encoder R125). -/
theorem Emitted.last (h : Emitted before F k t) (hk : k + 1 = F.length) (hr : inp.rst = false)
    (ho : inp.outReady = true) (hc : clock inp t = .next u) :
    u.encBusy = false ∧ u.encPos = 0 ∧ u.encAcc = byteSum8 (slice F 2 (k - 1)) := by
  obtain ⟨hb, hpos, ⟨-, -, -, hinv⟩, hF⟩ := h.inFlight (Nat.lt_of_succ_le (Nat.le_of_eq hk))
  have hlen := length_frameInFlight t
  rw [hF] at hlen
  obtain ⟨hstep, -⟩ := emissionStepAdvancesFrame t hb
  obtain ⟨hacc, hbusy, hpos', -⟩ := hstep inp u hr ho hc
  obtain ⟨-, hsum⟩ := hinv hb
  rw [if_pos (by omega)] at hbusy hpos'
  rw [if_neg (by omega), hsum, hF, hpos] at hacc
  exact ⟨hbusy, hpos', hacc⟩

end

/-- A run answers through the state before its last step. -/
theorem clockAll_concat_next {inps : List StepInput} {inp : StepInput} {s t : State}
    (h : clockAll (inps ++ [inp]) s = .next t) : ∃ u, clockAll inps s = .next u ∧ clock inp u = .next t := by
  induction inps generalizing s with
  | nil =>
    obtain ⟨u, hu, ht⟩ := clockAll_cons_next h
    cases ht
    exact ⟨s, rfl, hu⟩
  | cons a inps ih =>
    obtain ⟨v, hv, hrest⟩ := clockAll_cons_next h
    obtain ⟨u, hu, ht⟩ := ih hrest
    exact ⟨u, by simp only [clockAll, hv, hu], ht⟩

/-- Over steps without a reset the bytes taken are counted by the steps with `out_ready` (41_packet_encoder R127). -/
theorem Emitted.clockAll {before : List OutByte} {s t : State} {F : List Byte} {inps : List StepInput}
    (h : Emitted before F 0 s) (hin : ∀ inp ∈ inps, inp.rst = false) (hc : clockAll inps s = .next t) :
    Emitted before F (inps.countP (·.outReady)) t := by
  induction inps using List.reverseRecOn generalizing t with
  | nil =>
    cases hc
    exact h
  | append_singleton inps inp ih =>
    obtain ⟨u, hu, ht⟩ := clockAll_concat_next hc
    have hr := hin inp (by simp)
    have hprev := ih (fun a ha => hin a (by simp [ha])) hu
    rw [List.countP_append, List.countP_singleton]
    cases ho : inp.outReady with
    | false => exact hprev.hold hr ho ht
    | true => exact hprev.emit hr ho ht

section
variable {s : State} {id cmd n : Byte} {F : List Byte} (hn : n.toNat ≤ 253)
  (hbuild : build id cmd (s.pbufE.data.take n.toNat) = .frame F)
include hn hbuild

/-- A start whose frame `build` answers is valid, and latches that frame (41_packet_encoder R120, R124). -/
theorem startFrame_of_build : startFrame s id cmd n = (s.latchFrame id cmd n).setEncStatus .accepted ∧
    frameInFlight (startFrame s id cmd n) = F ∧ EncInv (startFrame s id cmd n) := by
  obtain ⟨-, hid, hF⟩ := build_eq_frame_iff.mp hbuild
  have hstart := startFrame_of_valid hid hn s cmd
  rw [hstart, hF]
  exact ⟨rfl, rfl, encInv_latched hid hn s cmd⟩

theorem length_of_build : F.length = n.toNat + 6 := by
  obtain ⟨hstart, hF, -⟩ := startFrame_of_build hn hbuild
  rw [← hF, length_frameInFlight, hstart]
  rfl

/-- After a valid start no byte of its frame has been taken (41_packet_encoder R124, R127). -/
theorem emitted_start : Emitted s.taken F 0 (startFrame s id cmd n) := by
  obtain ⟨hstart, hF, hinv⟩ := startFrame_of_build hn hbuild
  exact ⟨fun _ => by simp [hstart], fun _ => ⟨by rw [hstart]; rfl, by rw [hstart]; rfl, hinv, hF⟩⟩

end

/-- The step of a command that decodes to a start, from an idle encoder (41_packet_encoder R124). -/
theorem clock_start {s : State} {c : Command} {id cmd n : Byte} (hb : s.encBusy = false)
    (hd : decodeCommand c = .instr (.encStart id cmd n)) (r : Bool) :
    clock { rst := false, cmd := some c, outReady := r } s = .next (startFrame s id cmd n) :=
  (clock_idle hb).trans ((runCommand_of_decode hd s).trans (exec_encStart_of_idle hb id cmd n))

/-- Settles O33: by induction over the later steps, each of which takes the next byte of the frame or holds it. -/
theorem encoderEmitsBuiltFrame : Obligations.EncoderEmitsBuiltFrame := by
  intro s t c r id cmd n F inps hb hd hbuild hn hin h k
  obtain ⟨u, hu, ht⟩ := clockAll_cons_next h
  rw [clock_start hb hd] at hu
  cases hu
  have hlen := length_of_build hn hbuild
  have hem := (emitted_start hn hbuild).clockAll hin ht
  refine ⟨fun hk => hem.taken (by omega), fun hk => ?_, fun hk hready => ?_⟩
  · obtain ⟨hb, hpos, hinv, hF⟩ := hem.inFlight (by omega)
    obtain ⟨-, -, -, hbusy⟩ := hinv
    obtain ⟨-, hacc⟩ := hbusy hb
    rw [hF, hpos] at hacc
    exact ⟨hb, hpos, by omega, hacc, (hem.offered (by omega)).1⟩
  · rcases List.eq_nil_or_concat inps with rfl | ⟨init, inp, rfl⟩
    · cases hready
    · have ho : inp.outReady = true := by simpa using hready
      obtain ⟨v, hv, hlast⟩ := clockAll_concat_next (List.concat_eq_append ▸ ht)
      have hinit := (emitted_start hn hbuild).clockAll (fun a ha => hin a (by simp [ha])) hv
      have hcount : k = init.countP (·.outReady) + 1 := by simp [k, ho]
      exact (hinit.last (by omega) (hin inp (by simp)) ho hlast).1

/-! ## A frame, drained -/

/-- A run that answers begins with a step that answers. -/
theorem run_succ_next {k : Nat} {s t : State} (h : Host.Core.run Sys2Proof.core (k + 1) s = .next t) :
    ∃ u : State, step s = .next u ∧ Host.Core.run Sys2Proof.core k u = .next t := by
  cases hs : step s with
  | next u => exact ⟨u, rfl, run_succ_of_next hs ▸ h⟩
  | fault e | refused e =>
    have hs' : Sys2Proof.core.step s = _ := hs
    simp only [Host.Core.run, hs'] at h
    cases h

/-- A run with one more step. -/
theorem run_succ_snoc {k : Nat} {s t u : State} (h : Host.Core.run Sys2Proof.core k s = .next t)
    (hstep : step t = .next u) : Host.Core.run Sys2Proof.core (k + 1) s = .next u := by
  induction k generalizing s with
  | zero =>
    cases h
    exact run_succ_of_next (k := 0) hstep
  | succ k ih =>
    obtain ⟨v, hv, hrest⟩ := run_succ_next h
    rw [run_succ_of_next hv]
    exact ih hrest

/-- The inputs of a `drain` make the step an emission (30_encoding R74, 41_packet_encoder R125). -/
theorem clock_drain (s : State) : clock HostAct.drain.input s = .next (emission s true s) := clock_of_no_cmd rfl rfl s

/-- While the encoder is busy a `drain` presents its inputs, and stays (30_encoding R74). -/
theorem step_drain {s : State} {rest : List HostAct} (hb : s.encBusy = true) (h : s.host = .drain :: rest) :
    step s = .next (emission s true s) := by
  have hpending : pending s = .drain :: rest := by simp [pending, h, skipDrains, hb]
  have hhost : s.setHost (.drain :: rest) = s := by rw [← h]; rfl
  rw [← clock_drain]
  simp only [step, nextInput, remaining, hpending, actDone, Bool.false_eq_true, if_false, hhost]

/-- The state `t` is `s` but for the four fields that the emission part writes (41_packet_encoder R125). -/
def SameButEmission (s t : State) : Prop :=
  t = { s with encAcc := t.encAcc, encBusy := t.encBusy, encPos := t.encPos, taken := t.taken }

theorem SameButEmission.emission {s t : State} (h : SameButEmission s t) (r : Bool) :
    SameButEmission s (emission t r t) := by
  have he := emission_frame t t r
  unfold SameButEmission at h ⊢
  generalize Machine.emission t r t = u at he ⊢
  rw [he, h]

section
variable {before : List OutByte} {s : State} {F : List Byte} {rest : List HostAct} (h : Emitted before F 0 s)
  (hhost : s.host = .drain :: rest)
include h hhost

/-- Over `k` steps of a `drain` the first `k` bytes are taken, and only emission writes (41_packet_encoder R125,
R127). -/
theorem run_drain {k : Nat} (hk : k ≤ F.length) :
    ∃ t : State, Host.Core.run Sys2Proof.core k s = .next t ∧ Emitted before F k t ∧ SameButEmission s t := by
  induction k with
  | zero => exact ⟨s, rfl, h, rfl⟩
  | succ k ih =>
    obtain ⟨t, hrun, hem, ht⟩ := ih (Nat.le_of_succ_le hk)
    obtain ⟨hb, -⟩ := hem.inFlight hk
    have hstep := step_drain hb (by rw [ht]; exact hhost)
    exact ⟨emission t true t, run_succ_snoc hrun hstep, hem.emit rfl rfl (clock_drain t), ht.emission true⟩

/-- A drained frame is taken whole, and leaves the encoder idle with the sum of the body (41_packet_encoder R127). -/
theorem run_drain_whole {k : Nat} (hk : k + 1 = F.length) :
    ∃ t : State, Host.Core.run Sys2Proof.core (k + 1) s = .next t ∧
      t = { s with encBusy := false, encPos := 0, encAcc := byteSum8 (slice F 2 (k - 1))
                   taken := before ++ outBytes F } := by
  obtain ⟨t, hrun, hem, ht⟩ := run_drain h hhost (k := k) (by omega)
  obtain ⟨hb, -⟩ := hem.inFlight (by omega)
  have hstep := step_drain hb (by rw [ht]; exact hhost)
  obtain ⟨hidle, hpos, hacc⟩ := hem.last hk rfl rfl (clock_drain t)
  have htaken := (hem.emit rfl rfl (clock_drain t)).taken (Nat.le_of_eq hk)
  rw [List.take_of_length_le (by rw [length_outBytes, hk])] at htaken
  refine ⟨emission t true t, run_succ_snoc hrun hstep, (ht.emission true).trans ?_⟩
  rw [hidle, hpos, hacc, htaken]

end

/-- Settles O35: the step of the start, and the `n + 6` steps of the drained frame. -/
theorem drainTakesWholeFrame : Obligations.DrainTakesWholeFrame := by
  intro s c r id cmd n F rest hb hd hn hbuild hhost
  have hready : cmdReady s c = true := by cases c <;> simp [cmdReady, wordReady, hb]
  have hstart : step s = .next (startFrame (s.setHost (.drain :: rest)) id cmd n) := by
    rw [step_present hhost, hready, if_pos rfl]
    exact clock_start (s := s.setHost (.drain :: rest)) hb hd r
  have hem := emitted_start (s := s.setHost (.drain :: rest)) hn hbuild
  obtain ⟨hlatch, -⟩ := startFrame_of_build (s := s.setHost (.drain :: rest)) hn hbuild
  rw [hlatch] at hstart hem
  obtain ⟨t, hrun, rfl⟩ := run_drain_whole hem rfl (k := n.toNat + 5) (length_of_build hn hbuild).symm
  exact (run_succ_of_next hstart).trans hrun

end Sys2Proof.Machine

namespace Sys2Proof.Machine

/-! ## Runs of command words that are always taken -/

theorem encEffect_setHost (s : State) (acts : List HostAct) (l : Option Instr) :
    encEffect (s.setHost acts) l = (encEffect s l).setHost acts := by
  unfold encEffect
  rw [State.setHost_encBusy]
  split
  · split <;> rfl
  · rw [startFrame_setHost]
    split <;> rfl
  · rfl

/-- A command of the command port neither reads nor writes the host's script (10_state R34). -/
theorem exec_setHost {i : Instr} {w : Word} {s t : State} (hw : encodeWord i = some w) (h : exec i s = .next t)
    (acts : List HostAct) : exec i (s.setHost acts) = .next (t.setHost acts) := by
  cases i with
  | nop | cuClr | cuAdd _ | decEnd => cases h; rfl
  | encLoad k v =>
    rw [exec_encLoad] at h ⊢
    cases h
    rw [encEffect_setHost]
  | encStart id cmd np =>
    rw [exec_encStart] at h ⊢
    cases h
    rw [encEffect_setHost]
  | decByte b =>
    cases h
    refine congrArg Host.Outcome.next ?_
    unfold receiveByte
    rw [State.setHost_rxCnt]
    split
    · rfl
    · split <;> rfl
  | framePing _ | frameRead _ _ _ | frameWrite _ _ _ _ => cases hw

theorem emission_setHost (s t : State) (acts acts' : List HostAct) (r : Bool) :
    emission (s.setHost acts) r (t.setHost acts') = (emission s r t).setHost acts' := by
  unfold emission
  rw [State.setHost_encBusy]
  split <;> rfl

/-- The inputs of a step that presents a command word (10_state R12). -/
def wordInput (r : Bool) (w : Word) : StepInput := { rst := false, cmd := some (.word w), outReady := r }

/-- A command word's step does not depend on the host's script (10_state R12, R33). -/
theorem clock_word_setHost {w : Word} {r : Bool} {s t : State}
    (h : clock (wordInput r w) s = .next t) (acts : List HostAct) :
    clock (wordInput r w) (s.setHost acts) = .next (t.setHost acts) := by
  rcases clock_cases h with ⟨hr, -⟩ | ⟨-, hc, -⟩ | ⟨-, c, u, hc, hrun, rfl⟩
  · cases hr
  · cases hc
  · cases hc
    rcases runCommand_cases hrun with ⟨i, hd, he⟩ | ⟨q, e, hc, -⟩
    · rw [clock_of_cmd rfl rfl, runCommand_of_decode hd, exec_setHost (encodeWord_of_decodeWord hd) he]
      exact congrArg Host.Outcome.next (emission_setHost ..)
    · cases hc

/-- A command word's step leaves the host's script (10_state R12, R33). -/
theorem clock_word_host {w : Word} {r : Bool} {s t : State}
    (h : clock (wordInput r w) s = .next t) : t.host = s.host := by
  have h' : clock (wordInput r w) s = .next (t.setHost s.host) := clock_word_setHost h s.host
  have hhost := congrArg State.host (Host.Outcome.next.inj (h.symm.trans h'))
  exact hhost

/-- A word that is a command and is never held: `CU_CLR`, `CU_ADD`, `DEC_BYTE`, `DEC_END`, `NOP` (10_state R28). -/
def AlwaysTaken (w : Word) : Prop := w.toNat < 7 * 2 ^ 28 ∧ ∀ s : State, wordReady s w = true

/-- A run over words that are always taken is a run of one step a word, and then the script is at what follows
(30_encoding R73). -/
theorem run_words (r : Bool) (rest : List HostAct) {ws : List Word} (hws : ∀ w ∈ ws, AlwaysTaken w) (s : State) :
    ∃ t, clockAll (ws.map (wordInput r)) s = .next t ∧
      Host.Core.run Sys2Proof.core ws.length
        (s.setHost (ws.map (fun w => .present (.word w) r) ++ rest)) = .next (t.setHost rest) := by
  induction ws generalizing s with
  | nil => exact ⟨s, rfl, rfl⟩
  | cons w ws ih =>
    obtain ⟨⟨hlt, hready⟩, htail⟩ := List.forall_mem_cons.mp hws
    obtain ⟨v, hrun⟩ := runCommand_word_answers hlt s
    have hclock : clock (wordInput r w) s = .next (emission s r v) := by
      rw [clock_of_cmd rfl rfl, hrun]
      rfl
    obtain ⟨t, ht, hrun'⟩ := ih htail (emission s r v)
    refine ⟨t, by simp only [List.map_cons, clockAll, hclock, ht], ?_⟩
    refine (run_succ_of_next ?_).trans hrun'
    rw [step_present rfl, cmdReady, hready, if_pos rfl]
    exact clock_word_setHost (clock_word_setHost hclock _) _

/-- Lines that assemble are presented as their words (30_encoding R73). -/
theorem hostActs_lines (r : Bool) {ls : List AsmLine} {ws : List Word} (h : ls.map assemble = ws.map some) :
    hostActs r (ls.map .line) = some (ws.map fun w => .present (.word w) r) := by
  induction ls generalizing ws with
  | nil =>
    obtain rfl : ws = [] := List.map_eq_nil_iff.mp h.symm
    rfl
  | cons l ls ih =>
    obtain ⟨w, ws, rfl, hw, hws⟩ := List.map_eq_cons_iff.mp h.symm
    simp only [List.map_cons, hostActs, ← hw, ih hws.symm]

theorem assemble_cuAdd (b : Byte) : assemble (.cuAdd b.toNat) = some (packWord 2 0 0 b) := by
  simp [assemble, operandByte_toNat, packWord]

theorem assemble_decByte (b : Byte) : assemble (.decByte b.toNat) = some (packWord 5 0 0 b) := by
  simp [assemble, operandByte_toNat, packWord]

/-- The word of an instruction of the checksum_unit or of the decoder is always taken (10_state R28). -/
theorem alwaysTaken_of_encodeWord {i : Instr} {w : Word} (hw : encodeWord i = some w)
    (h3 : opField w ≠ 3) (h4 : opField w ≠ 4) : AlwaysTaken w :=
  ⟨(decodeWord_instr_iff w).mp ⟨i, decodeWord_of_encodeWord hw⟩, fun s => by
    simp only [wordReady, beq_false_of_ne h3, beq_false_of_ne h4, Bool.or_false, Bool.and_false, Bool.not_false]⟩

/-- The instruction that the step of an encoded word presents. -/
theorem presents_word {i : Instr} {w : Word} (hw : encodeWord i = some w) (r : Bool) :
    presents (wordInput r w) = some i :=
  presents_of_decode rfl rfl (decodeWord_of_encodeWord hw)

/-- Steps that present neither a `DEC_BYTE` nor a `DEC_END` leave the decoder (10_state R34). -/
theorem clockAll_sameDecoder {inps : List StepInput} {s t : State}
    (hin : ∀ inp ∈ inps, inp.rst = false ∧ presents inp ≠ some .decEnd ∧ ∀ b, presents inp ≠ some (.decByte b))
    (h : clockAll inps s = .next t) : SameDecoder s t := by
  refine clockAll_keeps (P := SameDecoder s) (fun inp hi u v hu hv => ?_) (SameDecoder.refl s) h
  obtain ⟨hr, hend, hbyte⟩ := hin inp hi
  exact hu.trans (clock_sameDecoder hr hend hbyte hv)

/-- Steps that present neither a `CU_CLR` nor a `CU_ADD` leave `CU_ACC` (10_state R34). -/
theorem clockAll_sameCuAcc {inps : List StepInput} {s t : State}
    (hin : ∀ inp ∈ inps, inp.rst = false ∧ presents inp ≠ some .cuClr ∧ ∀ b, presents inp ≠ some (.cuAdd b))
    (h : clockAll inps s = .next t) : t.cuAcc = s.cuAcc := by
  refine clockAll_keeps (P := fun u => u.cuAcc = s.cuAcc) (fun inp hi u v hu hv => ?_) rfl h
  obtain ⟨hr, hclr, hadd⟩ := hin inp hi
  obtain ⟨hacc, -⟩ := normalStepLeavesOtherRegisters inp u v hr hv
  exact (hacc hclr hadd).trans hu

/-! ## `cu.sum` -/

/-- The command words of `cu.sum` (30_encoding R74). -/
def cuSumWords (B : List Byte) : List Word := packWord 1 0 0 0 :: B.map (packWord 2 0 0)

theorem cuSumLines_assemble (B : List Byte) :
    (cuSumLines (B.map BitVec.toNat)).map assemble = (cuSumWords B).map some := by
  have hclr : assemble .cuClr = some (packWord 1 0 0 0) := rfl
  simp [cuSumLines, cuSumWords, hclr, assemble_cuAdd, Function.comp_def]

theorem cuSumWords_alwaysTaken (B : List Byte) : ∀ w ∈ cuSumWords B, AlwaysTaken w := by
  refine List.forall_mem_cons.mpr ⟨?_, List.forall_mem_map.mpr fun b _ => ?_⟩
  · exact alwaysTaken_of_encodeWord (i := .cuClr) rfl (by simp) (by simp)
  · exact alwaysTaken_of_encodeWord (i := .cuAdd b) rfl (by simp) (by simp)

/-- Every step of the adds presents a `CU_ADD`. -/
theorem presents_cuAdd_words {B : List Byte} {r : Bool} {inp : StepInput}
    (h : inp ∈ (B.map (packWord 2 0 0)).map (wordInput r)) : inp.rst = false ∧ ∃ b, presents inp = some (.cuAdd b) := by
  rw [List.map_map] at h
  obtain ⟨b, -, rfl⟩ := List.mem_map.mp h
  exact ⟨rfl, b, presents_word (i := .cuAdd b) rfl r⟩

theorem cuAdds_words (B : List Byte) (r : Bool) : cuAdds ((B.map (packWord 2 0 0)).map (wordInput r)) = B := by
  have hb (b : Byte) : presents (wordInput r (packWord 2 0 0 b)) = some (.cuAdd b) := presents_word rfl r
  simp only [cuAdds, List.filterMap_map, Function.comp_def, hb, List.filterMap_some]

/-- Settles O24: the run is one step for the `CU_CLR` and one for each `CU_ADD`, which R106 sums up. -/
theorem cuSumLeavesChecksum : Obligations.CuSumLeavesChecksum := by
  intro s B r rest
  have hclr : presents (wordInput r (packWord 1 0 0 0)) = some .cuClr := presents_word rfl r
  obtain ⟨t, hclock, hrun⟩ := run_words r rest (cuSumWords_alwaysTaken B) s
  rw [cuSumWords, List.length_cons, List.length_map] at hrun
  have hsum := (checksumUnitComputesChecksum ((B.map (packWord 2 0 0)).map (wordInput r)) s t fun inp h => by
    obtain ⟨hr, b, hp⟩ := presents_cuAdd_words h
    exact ⟨hr, by simp [hp]⟩).1 _ hclr hclock
  rw [cuAdds_words] at hsum
  have hdec : SameDecoder s t := clockAll_sameDecoder (List.forall_mem_cons.mpr ⟨?_, fun inp h => ?_⟩) hclock
  · exact ⟨_, t.setHost rest, hostActs_lines r (cuSumLines_assemble B), hrun, hsum.2, hdec, rfl⟩
  · exact ⟨rfl, by rw [hclr]; simp, by rw [hclr]; simp⟩
  · obtain ⟨hr, b, hp⟩ := presents_cuAdd_words h
    exact ⟨hr, by simp [hp], by simp [hp]⟩

/-! ## `dec.frame` -/

/-- The command words of `dec.frame` (30_encoding R74). -/
def decFrameWords (B : List Byte) : List Word := B.map (packWord 5 0 0) ++ [packWord 6 0 0 0]

theorem decFrameLines_assemble (B : List Byte) :
    (decFrameLines (B.map BitVec.toNat)).map assemble = (decFrameWords B).map some := by
  have hend : assemble .decEnd = some (packWord 6 0 0 0) := rfl
  simp [decFrameLines, decFrameWords, hend, assemble_decByte, Function.comp_def]

theorem decFrameWords_alwaysTaken (B : List Byte) : ∀ w ∈ decFrameWords B, AlwaysTaken w := by
  refine List.forall_mem_append.mpr ⟨List.forall_mem_map.mpr fun b _ => ?_, List.forall_mem_singleton.mpr ?_⟩
  · exact alwaysTaken_of_encodeWord (i := .decByte b) rfl (by simp) (by simp)
  · exact alwaysTaken_of_encodeWord (i := .decEnd) rfl (by simp) (by simp)

/-- Every step of the bytes presents a `DEC_BYTE`. -/
theorem presents_decByte_words {B : List Byte} {r : Bool} {inp : StepInput}
    (h : inp ∈ (B.map (packWord 5 0 0)).map (wordInput r)) :
    inp.rst = false ∧ ∃ b, presents inp = some (.decByte b) := by
  rw [List.map_map] at h
  obtain ⟨b, -, rfl⟩ := List.mem_map.mp h
  exact ⟨rfl, b, presents_word (i := .decByte b) rfl r⟩

theorem decBytes_words (B : List Byte) (r : Bool) : decBytes ((B.map (packWord 5 0 0)).map (wordInput r)) = B := by
  have hb (b : Byte) : presents (wordInput r (packWord 5 0 0 b)) = some (.decByte b) := presents_word rfl r
  simp only [decBytes, List.filterMap_map, Function.comp_def, hb, List.filterMap_some]

theorem HoldsParse.congr {s t : State} {v : Parsed} (h : HoldsParse s v) (hdec : SameDecoder s t) : HoldsParse t v := by
  obtain ⟨-, -, hst, hid, hlen, herr, hnp, hchk, hpar⟩ := hdec
  unfold HoldsParse
  rw [← hst, ← hid, ← hlen, ← herr, ← hnp, ← hchk, ← hpar]
  exact h

/-- Settles O44: the bytes' steps append them, and the step of the `DEC_END` parses them. -/
theorem decFrameLeavesParse : Obligations.DecFrameLeavesParse := by
  intro s B r rest h0
  have hend : presents (wordInput r (packWord 6 0 0 0)) = some .decEnd := presents_word rfl r
  obtain ⟨t, hclock, hrun⟩ := run_words r rest (decFrameWords_alwaysTaken B) s
  rw [decFrameWords, List.length_append, List.length_map, List.length_singleton] at hrun
  rw [decFrameWords, List.map_append] at hclock
  have hacc : t.cuAcc = s.cuAcc := by
    refine clockAll_sameCuAcc (List.forall_mem_append.mpr ⟨fun inp h => ?_, List.forall_mem_singleton.mpr ?_⟩) hclock
    · obtain ⟨hr, b, hp⟩ := presents_decByte_words h
      exact ⟨hr, by simp [hp], by simp [hp]⟩
    · exact ⟨rfl, by rw [hend]; simp, by rw [hend]; simp⟩
  obtain ⟨u, hu, ht⟩ := clockAll_concat_next hclock
  have hbytes : Received u B := by
    have hrec := (received_nil h0).of_clockAll (fun inp h => ?_) hu
    · rwa [decBytes_words, List.nil_append] at hrec
    · obtain ⟨hr, b, hp⟩ := presents_decByte_words h
      exact ⟨hr, by simp [hp]⟩
  have hdec := clock_decoder rfl ht
  rw [hend] at hdec
  have hparse : HoldsParse t (parse B) := (holdsParse_decEnd hbytes).congr hdec
  exact ⟨_, t.setHost rest, hostActs_lines r (decFrameLines_assemble B), hrun, hparse, hacc, hdec.1.symm, rfl⟩

end Sys2Proof.Machine

namespace Sys2Proof.Machine

/-! ## Requests, run line by line -/

/-- From an idle encoder the step of a request is that of the first word of its lines, with the others left to the
host (10_state R11, 30_encoding R74). -/
theorem step_request {s : State} {q : Request} {r : Bool} {rest : List HostAct} (hb : s.encBusy = false)
    (hl : q.params.length ≤ 255) (h : s.host = .present (.request q) r :: rest) :
    step s = step (s.setHost ((frameWords q.id q.cmd (BitVec.ofNat 8 q.params.length) 0 q.params).map
      (fun w => .present (.word w) false) ++ rest)) := by
  obtain ⟨w, ws, hwords, hrun⟩ := runCommand_request_of_idle hl
  have hready : cmdReady s (.request q) = true := by simp [cmdReady, hb]
  have hready' : ∀ acts, cmdReady (s.setHost acts) (.word w) = true := by simp [cmdReady, wordReady, hb]
  rw [hwords, List.map_cons, List.cons_append, step_present h,
    step_present (s := s.setHost (.present (.word w) false :: _)) rfl, hready, if_pos rfl, hready', if_pos rfl,
    clock_idle (by exact hb), clock_idle (by exact hb)]
  exact hrun (s.setHost rest) hb

/-- The run that presents a request's words ends with the request run (30_encoding R74). -/
theorem run_request_words {s : State} {q : Request} (r : Bool) (rest : List HostAct) (hb : s.encBusy = false)
    (hl : q.params.length ≤ 255) :
    Host.Core.run Sys2Proof.core (q.params.length + 1)
      (s.setHost ((frameWords q.id q.cmd (BitVec.ofNat 8 q.params.length) 0 q.params).map
        (fun w => .present (.word w) r) ++ rest)) = .next ((s.runFrame q).setHost rest) := by
  rw [run_frameWords q.id q.cmd (BitVec.ofNat 8 q.params.length) r rest q.params 0 _ (by exact hb) (by omega) rfl,
    loadParams_setHost, startFrame_setHost]
  rfl

/-- The run that begins with a request ends with the request run (30_encoding R74). -/
theorem run_request {s : State} {q : Request} {r : Bool} {rest : List HostAct} (hb : s.encBusy = false)
    (hl : q.params.length ≤ 255) (h : s.host = .present (.request q) r :: rest) :
    Host.Core.run Sys2Proof.core (q.params.length + 1) s = .next ((s.runFrame q).setHost rest) := by
  have hwords := run_request_words (s := s) false rest hb hl
  obtain ⟨u, hu, hrest⟩ := run_succ_next hwords
  exact (run_succ_of_next ((step_request hb hl h).trans hu)).trans hrest

/-- A request does not look at the host's script. -/
theorem runFrame_setHost (s : State) (q : Request) (acts : List HostAct) :
    (s.setHost acts).runFrame q = (s.runFrame q).setHost acts := by
  rw [State.runFrame, loadParams_setHost, startFrame_setHost]
  rfl

/-- Settles O54: the step of the request is that of its first word, and both runs then present the same words. -/
theorem requestRunsItsLines : Obligations.RequestRunsItsLines := by
  intro s q r r' rest hb hl
  refine ⟨_, hostActs_encFrameLines r' hl, ?_, run_request_words r' rest hb hl⟩
  refine (run_request (s := s.setHost (.present (.request q) r :: rest)) hb hl rfl).trans ?_
  rw [runFrame_setHost]
  rfl

/-- What the run of a request leaves: the parameters in the first entries, and the outcome of the start by their count
and the ID (30_encoding R74, 41_packet_encoder R124). -/
theorem run_request_facts {s : State} {q : Request} {r : Bool} {rest : List HostAct} (hb : s.encBusy = false)
    (hl : q.params.length ≤ 255) (h : s.host = .present (.request q) r :: rest) :
    ∃ u : State, Host.Core.run Sys2Proof.core (q.params.length + 1) s = .next u ∧
      (∀ j, u.pbufE.get j = if j < q.params.length then byteAt q.params j else s.pbufE.get j) ∧
      (253 < q.params.length → u = { s with encStatus := .errNParams, pbufE := u.pbufE, host := rest }) ∧
      (q.params.length ≤ 253 → 253 < q.id.toNat →
        u = { s with encStatus := .errId, pbufE := u.pbufE, host := rest }) ∧
      (q.params.length ≤ 253 → q.id.toNat ≤ 253 →
        u = { s with encId := q.id, encCmd := q.cmd, encNp := BitVec.ofNat 8 q.params.length, encPos := 0, encAcc := 0
                     encBusy := true, encStatus := .accepted, pbufE := u.pbufE, host := rest } ∧
        frameInFlight u = frameOf (frameBody q.id q.cmd q.params)) := by
  obtain ⟨hbuf, hnp, hid, hok⟩ := runFrame_facts s q hl
  refine ⟨(s.runFrame q).setHost rest, run_request hb hl h, hbuf, fun h1 => ?_, fun h1 h2 => ?_, fun h1 h2 => ?_⟩
  · exact congrArg (State.setHost · rest) (hnp h1)
  · exact congrArg (State.setHost · rest) (hid h1 h2)
  · obtain ⟨hrun, hF⟩ := hok h1 h2
    exact ⟨congrArg (State.setHost · rest) hrun, hF⟩

/-! ## The wire commands -/

/-- A start for one of the reserved IDs reports ERR_ID (41_packet_encoder R124). -/
theorem startFrame_of_reserved {id np : Byte} (hnp : np.toNat ≤ 253) (hid : 253 < id.toNat) (s : State) (cmd : Byte) :
    startFrame s id cmd np = s.setEncStatus .errId := by
  rcases startFrame_cases s id cmd np with ⟨h, -⟩ | ⟨-, -, e⟩ | ⟨-, h, -⟩
  · omega
  · exact e
  · omega

/-- FRAME_PING is `enc.start id, 0x01, 0` (43_wire_commands R180). -/
theorem exec_framePing (s : State) (id : Byte) : exec (.framePing id) s = exec (.encStart id 0x01 0) s := rfl

/-- Settles O50: the ping is a start without parameters. -/
theorem framePingStartsPing : Obligations.FramePingStartsPing := by
  intro s id
  refine ⟨exec_framePing s id, fun hb hid => ?_, fun hb hid => ?_, fun hb => if_pos hb, fun hid => ?_, ?_⟩
  · rw [exec_framePing, exec_encStart_of_idle hb, startFrame_of_valid hid (by decide)]
    exact ⟨_, rfl, rfl, rfl⟩
  · rw [exec_framePing, exec_encStart_of_idle hb, startFrame_of_reserved (by decide) hid]
    rfl
  · exact encodeFrame_of_requestOf (q := ⟨id, 0x01, []⟩) rfl (Nat.zero_le _) hid
  · rw [← frameOf_ack, parse_frameOf id 0x00 (Nat.zero_le _)]
    rfl

/-- Settles O51: the first line loads the address, the two others are queued, and the whole is a request's run. -/
theorem frameReadStartsRead : Obligations.FrameReadStartsRead := by
  intro s id address width
  refine ⟨rfl, fun hb => ?_, fun hb => if_pos hb, fun r rest hb hhost => ?_, rfl⟩
  · refine ⟨_, _, _, encFrame_cons_of_idle id 0x02 hb address (P := [width]) (show 1 ≤ 254 by decide), rfl,
      ByteBuf.get_set_self _ address (by decide), fun j hj => ByteBuf.get_set_of_ne _ address (by omega),
      assemble_encLoad width (by decide), assemble_encStart id 0x02 (by decide), rfl⟩
  · obtain ⟨u, hrun, hbuf, -, hid, hok⟩ := run_request_facts hb (by simp) hhost
    exact ⟨u, hrun, hbuf 0, hbuf 1, fun j hj => (hbuf j).trans (if_neg (by simp; omega)), hok (by simp), hid (by simp)⟩

/-- The entries of `PBUF_E` hold an address and the little-endian bytes of a value behind it (43_wire_commands R182,
R184). -/
theorem get_of_address_bytes {get old : Nat → Byte} {address : Byte} {v : List Byte} {value width : Nat}
    (hv : leBytes value width = some v)
    (h : ∀ j, get j = if j < (address :: v).length then byteAt (address :: v) j else old j) :
    get 0 = address ∧ (∀ k, k < width → (get (k + 1)).toNat = value / 256 ^ k % 256) ∧
      ∀ j, width < j → get j = old j := by
  have hlen := length_of_leBytes hv
  rw [List.length_cons, hlen] at h
  refine ⟨(h 0).trans (if_pos (Nat.succ_pos width)), fun k hk => ?_, fun j hj => (h j).trans (if_neg (by omega))⟩
  rw [h, if_pos (by omega), byteAt_cons_succ]
  exact byteAt_of_leBytes hv hk

/-- Settles O52: the write's request is the address and the value's bytes; its first line loads the address, the others
are queued, and the whole is a request's run. -/
theorem frameWriteStartsWrite : Obligations.FrameWriteStartsWrite := by
  intro s id address width value hwidth hvalue
  obtain ⟨v, hv⟩ : ∃ v, leBytes value width = some v := ⟨_, leBytes_of_lt hvalue⟩
  have hlen := length_of_leBytes hv
  have hreq : requestOf (.frameWrite id address width value) = some ⟨id, 0x03, address :: v⟩ := by
    simp only [requestOf, hv]
  have hexec := exec_of_requestOf hreq s
  refine ⟨v, hv, decodeRequest_of_requestOf hreq, fun hb => ?_, fun hb => ?_, fun r rest h252 hb hhost => ?_, rfl⟩
  · refine ⟨_, _, hexec.trans (encFrame_cons_of_idle id 0x03 hb address (by omega)), rfl,
      ByteBuf.get_set_self _ address (by decide), fun j hj => ByteBuf.get_set_of_ne _ address (by omega),
      hostActs_frameLines false id 0x03 (by omega) v 1 (by omega), ?_⟩
    rw [hlen]
    rfl
  · rw [hexec, encFrame_of_held id 0x03 hb (by simp; omega)]
  · obtain ⟨u, hrun, hbuf, -, hid, hok⟩ := run_request_facts hb (by simp; omega) hhost
    obtain ⟨h0, hbytes, hold⟩ := get_of_address_bytes hv hbuf
    rw [List.length_cons, hlen] at hrun hid hok
    refine ⟨u, hrun, h0, hbytes, hold, fun hvalid => ?_, hid (by omega)⟩
    obtain ⟨hu, hF⟩ := hok (by omega) hvalid
    refine ⟨hu, hF.trans ?_⟩
    rw [frameBody, List.length_cons, hlen]
    rfl

/-- Settles O53: `le_bytes` refuses a value out of range and `enc.frame` more than 255 parameters; for 254 or 255 the
request's run ends in the start's test of the count. -/
theorem frameWriteOutOfRange : Obligations.FrameWriteOutOfRange := by
  intro s id address width value
  refine ⟨fun hvalue => ?_, fun hvalue hwidth => ?_, fun v r rest hv h253 h254 hb hhost => ?_⟩
  · rw [exec, execFrameWrite, leBytes_of_le hvalue]
  · obtain ⟨v, hv⟩ : ∃ v, leBytes value width = some v := ⟨_, leBytes_of_lt hvalue⟩
    have hlen := length_of_leBytes hv
    simp only [exec, execFrameWrite, hv]
    exact if_pos (by simp; omega)
  · have hlen := length_of_leBytes hv
    obtain ⟨u, hrun, hbuf, hnp, -⟩ := run_request_facts hb (by simp; omega) hhost
    rw [List.length_cons, hlen] at hrun hnp
    exact ⟨u, hrun, hnp (by omega), get_of_address_bytes hv hbuf⟩

end Sys2Proof.Machine

namespace Sys2Proof.Machine

/-! ## The reading of a servo -/

/-- A reading is the two pairs and the flags of a result with fields whose parameters hold both pairs
(43_wire_commands R188). -/
theorem servoReading_of_hasFields {s : State} {p q : Nat} (hf : s.decStatus.hasFields = true)
    (hp : p + 2 ≤ s.decNp.toNat) (hq : q + 2 ≤ s.decNp.toNat) (multi neg : Bool) :
    servoReading multi neg p q s = some
      { position := pairAt multi neg s p, speed := pairAt multi neg s q, errorFlags := s.decErr } :=
  if_pos (by simp [hf, hp, hq])

/-- Settles O57: OK and SERVO_FAULT are the verdicts with fields. -/
theorem servoReadingFromResult : Obligations.ServoReadingFromResult := by
  intro s neg p q
  refine ⟨fun hst hp hq => ?_, fun hst m => ?_⟩
  · have hread := servoReading_of_hasFields ((hasFields_iff_code _).mpr hst) hp hq
    exact ⟨hread false neg, _, hread true neg, rfl, rfl, rfl⟩
  · have hno : ¬s.decStatus.hasFields = true := by
      rw [hasFields_iff_code]
      rcases hst with e | e | e | e <;> rw [e] <;> decide
    exact if_neg (by simp [hno])

/-! ## The assembler's words -/

/-- A packed word as a number (30_encoding R60 to R64). -/
theorem packWord_eq_ofNat (op : BitVec 4) (f2 f1 f0 : Byte) :
    packWord op f2 f1 f0 =
      BitVec.ofNat 32 (op.toNat * 2 ^ 28 + f2.toNat * 2 ^ 16 + f1.toNat * 2 ^ 8 + f0.toNat) := by
  have hlt : op.toNat * 2 ^ 28 + f2.toNat * 2 ^ 16 + f1.toNat * 2 ^ 8 + f0.toNat < 2 ^ 32 := by omega
  have hw := BitVec.toNat_ofNatLT (w := 32) _ hlt
  rw [← BitVec.ofNatLT_eq_ofNat hlt]
  generalize BitVec.ofNatLT _ hlt = w at hw ⊢
  have hzero : w.extractLsb' 24 4 = 0 := by
    refine BitVec.eq_of_toNat_eq ?_
    rw [BitVec.extractLsb'_toNat, hw, Nat.shiftRight_eq_div_pow]
    exact Nat.mod_eq_zero_of_dvd (by omega)
  have hop : opField w = op := BitVec.eq_of_toNat_eq (by rw [opField_toNat, hw]; omega)
  have h2 : field2 w = f2 := BitVec.eq_of_toNat_eq (by rw [field2_eq_ofNat, BitVec.toNat_ofNat, hw]; omega)
  have h1 : field1 w = f1 := BitVec.eq_of_toNat_eq (by rw [field1_eq_ofNat, BitVec.toNat_ofNat, hw]; omega)
  have h0 : field0 w = f0 := BitVec.eq_of_toNat_eq (by rw [field0_eq_ofNat, BitVec.toNat_ofNat, hw]; omega)
  rw [eq_packWord_of_zero hzero, hop, h2, h1, h0]

/-- An operand is a byte, or the assembler rejects the line (30_encoding R73). -/
theorem operand_cases (n : Nat) : (∃ b : Byte, n = b.toNat) ∨ (¬n ≤ 255 ∧ operandByte n = none) := by
  by_cases h : n ≤ 255
  · exact .inl ⟨BitVec.ofNat 8 n, by rw [BitVec.toNat_ofNat]; omega⟩
  · exact .inr ⟨h, if_neg h⟩

theorem toNat_le_255 (b : Byte) : b.toNat ≤ 255 := Nat.le_of_lt_succ b.isLt

theorem assemble_cuAdd_operand (a : Nat) :
    assemble (.cuAdd a) = if a ≤ 255 then some (BitVec.ofNat 32 (0x20000000 + a)) else none := by
  rcases operand_cases a with ⟨x, rfl⟩ | ⟨ha, ea⟩
  · rw [assemble_cuAdd, packWord_eq_ofNat, if_pos (toNat_le_255 x)]
    rfl
  · simp [assemble, ea, ha]

theorem assemble_decByte_operand (a : Nat) :
    assemble (.decByte a) = if a ≤ 255 then some (BitVec.ofNat 32 (0x50000000 + a)) else none := by
  rcases operand_cases a with ⟨x, rfl⟩ | ⟨ha, ea⟩
  · rw [assemble_decByte, packWord_eq_ofNat, if_pos (toNat_le_255 x)]
    rfl
  · simp [assemble, ea, ha]

theorem assemble_encLoad_operands (a b : Nat) :
    assemble (.encLoad a b) =
      if a ≤ 255 ∧ b ≤ 255 then some (BitVec.ofNat 32 (0x30000000 + a * 2 ^ 8 + b)) else none := by
  rcases operand_cases a with ⟨x, rfl⟩ | ⟨ha, ea⟩
  · rcases operand_cases b with ⟨y, rfl⟩ | ⟨hb, eb⟩
    · rw [assemble_encLoad y x.isLt, packWord_eq_ofNat, BitVec.ofNat_toNat, BitVec.setWidth_eq,
        if_pos ⟨toNat_le_255 x, toNat_le_255 y⟩]
      rfl
    · simp [assemble, eb, hb]
  · simp [assemble, ea, ha]

theorem assemble_encStart_operands (a b c : Nat) :
    assemble (.encStart a b c) =
      if a ≤ 255 ∧ b ≤ 255 ∧ c ≤ 255 then some (BitVec.ofNat 32 (0x40000000 + a * 2 ^ 16 + b * 2 ^ 8 + c))
      else none := by
  rcases operand_cases a with ⟨x, rfl⟩ | ⟨ha, ea⟩
  · rcases operand_cases b with ⟨y, rfl⟩ | ⟨hb, eb⟩
    · rcases operand_cases c with ⟨z, rfl⟩ | ⟨hc, ec⟩
      · rw [assemble_encStart x y z.isLt, packWord_eq_ofNat, BitVec.ofNat_toNat, BitVec.setWidth_eq,
          if_pos ⟨toNat_le_255 x, toNat_le_255 y, toNat_le_255 z⟩]
        rfl
      · simp [assemble, ec, hc]
    · simp [assemble, eb, hb]
  · simp [assemble, ea, ha]

/-- Settles O58: a packed word is a sum, line by line; the step of a word leaves the script that its handshake left. -/
theorem assemblerWords : Obligations.AssemblerWords := by
  refine ⟨⟨rfl, rfl, rfl⟩, fun a b c => ⟨assemble_cuAdd_operand a, assemble_decByte_operand a,
    assemble_encLoad_operands a b, assemble_encStart_operands a b c⟩, fun s t w r rest hs h => ?_⟩
  rw [step_present hs] at h
  have hhost : t.host = _ := clock_word_host h
  rw [hhost, hs]
  rfl

end Sys2Proof.Machine
